-- ==== Sys2Proof/Word.lean ====
section
/-! DEFINITION. The machine's one word type. Every register, memory cell, operand byte and the flag register is a byte
(spec/00_scope.md R4: XLEN = 8; R9(a): an unsigned integer 0 to 255, bit 0 the least significant). -/

namespace Sys2Proof

/-- A byte (R4, R9(a)). -/
abbrev Byte := BitVec 8

end Sys2Proof
end

