-- ==== Sys2Proof/Config.lean ====
section
/-! DEFINITION. What the spec leaves as a parameter of the machine: the opcode bytes (spec/00_scope.md R5) and the flag
patterns (R6), each a type of instantiations with the spec's constraint. The default instantiations are plain numbers and
stand where a repair can reach them: `defaultOpc` in Sys2Proof/Decode.lean, `flagPatterns` in Sys2Proof/Machine/Flags.lean
(log entries 1 and 2). The fixed parameters of R4 are: XLEN = 8 (`Byte`), NREGS = 8 and MEM_SIZE = 256 (Machine/State.lean and
Machine/Ops.lean), SP_INDEX = 7 (Machine/Operands.lean), SP_RESET, PC_RESET, SP_TOP, LOAD_BASE (Machine/Params.lean), MAX_ILEN = 3
(Machine/Fetch.lean). -/

namespace Sys2Proof

/-- The twelve mnemonics, in the order of the opcode map (spec/30_encoding.md R63). -/
inductive Mnemonic where
  | hlt | ldi | prn | add | mul | cmp | push | pop | call | ret | jmp | jeq
  deriving DecidableEq, Repr

/-- The open parameter OPC: "a function OPC from the twelve mnemonics to bytes" (R5). -/
abbrev OpcodeMap := Mnemonic → Byte

/-- R5's one constraint: the twelve values are pairwise distinct. -/
def OpcodeMap.Distinct (opc : OpcodeMap) : Prop :=
  ∀ m n : Mnemonic, opc m = opc n → m = n

/-- The open parameters FL_L, FL_G, FL_E (R6). -/
structure FlagPatterns where
  less : Byte
  greater : Byte
  equal : Byte
  deriving DecidableEq, Repr

/-- R6's constraints: pairwise distinct, and each different from FL's reset value 0x00. -/
abbrev FlagPatterns.Valid (p : FlagPatterns) : Prop :=
  p.less ≠ p.greater ∧ p.less ≠ p.equal ∧ p.greater ≠ p.equal ∧
    p.less ≠ 0x00#8 ∧ p.greater ≠ 0x00#8 ∧ p.equal ≠ 0x00#8

/-- The four values FL takes: the reset value, or one of the three patterns (spec/10_state.md R29). -/
abbrev FlagPatterns.Legal (p : FlagPatterns) (v : Byte) : Prop :=
  v = 0x00#8 ∨ v = p.less ∨ v = p.greater ∨ v = p.equal

end Sys2Proof
end

