-- ==== Sys2Proof/Machine/Params.lean ====
section
/-! DEFINITION. The fixed numbers of spec/00_scope.md R4 and of the reset table spec/10_state.md R37. -/

namespace Sys2Proof.Machine

/-- What a cell nothing has written reads as: memory is zero-filled at reset (R37). -/
def unlistedByte : Byte := 0x00#8

/-- Reset value of register 7, the stack pointer (R4: SP_RESET, R37). -/
def spReset : Byte := 0xF3#8

/-- DEDUCED (unsafe, log entry 3). Reset value of registers 0 to 6 (R37, the spec's decision D4). -/
def regReset : Byte := 0x00#8

/-- DEDUCED (unsafe, log entry 3). Reset value of FL (R37, the spec's decision D3). -/
def flReset : Byte := 0x00#8

/-- Reset value of PC (R4: PC_RESET, R37). -/
def pcReset : Nat := 0

/-- The top boundary, at which POP does not increment SP (R4: SP_TOP; spec/43_stack.md R134). -/
def spTop : Byte := 0xFF#8

/-- The address of the first program byte (R4: LOAD_BASE). -/
def loadBase : Nat := 0

end Sys2Proof.Machine
end

