-- ==== Sys2Proof/Syntax.lean ====
section
/-! DEFINITION. The instruction set: one constructor per row of spec/opcode_table.json, its operands the bytes that follow the
opcode (spec/30_encoding.md R61, R63). A register operand is the whole byte, 0 to 255 (R64): a value of 8 or more is still this
instruction and is stopped by its handler, not by the decoder (R69). -/

namespace Sys2Proof

/-- The twelve instructions (spec/30_encoding.md R63). -/
inductive Instr where
  | hlt
  | ldi (reg value : Byte)
  | prn (reg : Byte)
  | add (regA regB : Byte)
  | mul (regA regB : Byte)
  | cmp (regA regB : Byte)
  | push (reg : Byte)
  | pop (reg : Byte)
  | call (reg : Byte)
  | ret
  | jmp (reg : Byte)
  | jeq (reg : Byte)
  deriving DecidableEq, Repr

end Sys2Proof
end

