-- ==== Sys2Proof/Machine/State.lean ====
section
/-! DEFINITION. The whole state of the core (spec/10_state.md R20: "the tuple below and nothing else"), its value after reset
(R37), and the reasons a step can stop. Plain data, no field of the model's own. -/

namespace Sys2Proof.Machine

/-- The memory: the cells that do not read as `unlistedByte`, addresses strictly rising (`Memory.wf`). -/
abbrev Memory := List Host.Cell

/-- RUN (spec/10_state.md R31). -/
inductive RunState where
  | running
  | halted
  | faulted
  deriving DecidableEq, Repr

/-- The fault causes with their information values (spec/60_exceptions.md R161, a closed list). -/
inductive Cause where
  /-- The decoder met a byte that is no opcode; the information value is the byte (R162). -/
  | unknownInstruction (ir : Byte)
  /-- A memory access outside 0 to 255; the information value is the address (R163). -/
  | outOfRange (address : Nat)
  /-- A register access with an index outside 0 to 7; the information value is the index (R164). -/
  | invalidRegister (index : Byte)
  /-- The ALU was given an operation it does not have; no program can do that (R165). -/
  | unsupportedOperation (name : String)
  /-- The loader had no program; the core never runs (R166). -/
  | programFileMissing
  deriving DecidableEq, Repr

/-- The state tuple of spec/10_state.md R20. -/
structure State where
  /-- MEM, 256 cells of 8 bits (R34). -/
  mem : Memory
  /-- x[0] to x[7]; register 7 is the stack pointer SP (R21, R24). -/
  regs : Vector Byte 8
  /-- PC, an integer in 0 to 256 that does not wrap (R26, R28); the bound is an invariant of the step (log entry 4). -/
  pc : Nat
  /-- FL, the flag byte (R29). -/
  fl : Byte
  /-- RUN (R31). -/
  run : RunState
  /-- CAUSE, meaningful only when RUN = Faulted (R32); `none` when nothing is latched (log entry 9). -/
  cause : Option Cause
  /-- OUTLOG, oldest first (R33). -/
  outlog : List Byte
  deriving DecidableEq, Repr

/-- Why there is no step (log entry 8). A fault of the SPEC is not one of these: it is a next state with RUN = Faulted (R170). -/
inductive Fault where
  /-- `step` in RUN = Halted: there is no step (spec/40_fetch_dispatch.md R80). Safe: the model stops where the core stops. -/
  | coreHalted
  /-- `step` in RUN = Faulted: there is no step (R80). Safe: the model stops where the core stops. -/
  | coreFaulted
  deriving DecidableEq, Repr

/-- Why an instruction is refused. -/
inductive Refusal where
  /-- `exec` on an instruction with no meaning yet; no arm uses it in this model. Safe: the model stops. -/
  | notModelled (mnemonic : String)
  deriving DecidableEq, Repr

/-- The state right after RESET with nothing loaded (R37, spec/70_reset_and_hazards.md R190): an empty program is allowed (R191). -/
def State.reset : State where
  mem := []
  regs := #v[regReset, regReset, regReset, regReset, regReset, regReset, regReset, spReset]
  pc := pcReset
  fl := flReset
  run := .running
  cause := none
  outlog := []

end Sys2Proof.Machine
end

