-- ==== Sys2Proof/Machine/Ops.lean ====
section
/-! DEFINITION. The shared operations over the state: byte arithmetic, memory in canonical form, the access primitives MemRead and
MemWrite (spec/20_memory.md R41, R42), the field updates, and taking a fault (spec/60_exceptions.md R167, R170).

There is no return from a fault beside it: nothing restores a Faulted core but RESET (R171), which is `hostReset` in
Machine/HostInterface.lean. -/

namespace Sys2Proof.Machine

/-- `v mod 256`, the mathematical remainder in 0 to 255, also for a negative `v` (spec/00_scope.md R9(b)). -/
def byteOf (v : Int) : Byte := BitVec.ofInt 8 v

/-- The byte of one cell; a cell not listed reads as it does after reset. -/
def Memory.read : Memory → Nat → Byte
  | [], _ => unlistedByte
  | (k, w) :: rest, a => if k = a then w else Memory.read rest a

/-- One cell takes a byte. The canonical form is kept: a byte equal to `unlistedByte` is not listed. -/
def Memory.write : Memory → Nat → Byte → Memory
  | [], a, v => if v = unlistedByte then [] else [(a, v)]
  | (k, w) :: rest, a, v =>
    if a < k then
      if v = unlistedByte then (k, w) :: rest else (a, v) :: (k, w) :: rest
    else if a = k then
      if v = unlistedByte then rest else (a, v) :: rest
    else (k, w) :: Memory.write rest a v

/-- The canonical form from address `lo` up: strictly rising addresses below 256, no cell equal to what an unlisted one reads as. -/
def Memory.wfFrom : Nat → Memory → Bool
  | _, [] => true
  | lo, (k, w) :: rest =>
    decide (lo ≤ k) && decide (k < 256) && decide (w ≠ unlistedByte) && Memory.wfFrom (k + 1) rest

/-- The memory is in canonical form. -/
def Memory.wf (m : Memory) : Bool := Memory.wfFrom 0 m

/-- `pc <- t` (spec/10_state.md R27). -/
def State.setPc (t : Nat) (s : State) : State := { s with pc := t }

/-- `FL <- v`, the whole byte (R29). -/
def State.setFl (v : Byte) (s : State) : State := { s with fl := v }

/-- `RUN <- r` (R31). -/
def State.setRun (r : RunState) (s : State) : State := { s with run := r }

/-- Replaces the memory. -/
def State.setMem (m : Memory) (s : State) : State := { s with mem := m }

/-- Replaces the register file. -/
def State.setRegs (r : Vector Byte 8) (s : State) : State := { s with regs := r }

/-- `Out(v)`: append `v` at the end of OUTLOG (R33). -/
def State.emit (v : Byte) (s : State) : State := { s with outlog := s.outlog ++ [v] }

/-- `pc <- pc + n`, a plain integer addition that does not wrap (R27, R28). -/
def State.advance (n : Nat) (s : State) : State := s.setPc (s.pc + n)

/-- Taking a fault: RUN becomes Faulted, CAUSE records the fault, nothing else changes (spec/60_exceptions.md R170). -/
def takeFault (c : Cause) (s : State) : State := { s with run := .faulted, cause := some c }

/-- `MemRead(a, 1)` (spec/20_memory.md R41). -/
def readMem (a : Nat) (s : State) : Except Cause Byte :=
  if a ≤ 255 then .ok (s.mem.read a) else .error (.outOfRange a)

/-- `MemWrite(a, 1, v)` (spec/20_memory.md R42). -/
def writeMem (a : Nat) (v : Byte) (s : State) : Except Cause State :=
  if a ≤ 255 then .ok (s.setMem (s.mem.write a v)) else .error (.outOfRange a)

/-- The end of a handler that began in `s`: what it computed, or, if it raised, the fault taken in `s` itself, so that every write
the step had made is discarded (spec/60_exceptions.md R167). -/
def commit (s : State) (r : Except Cause State) : Host.Outcome State Fault Refusal :=
  match r with
  | .ok t => .next t
  | .error c => .next (takeFault c s)

end Sys2Proof.Machine
end

