-- ==== Sys2Proof/Machine/Operands.lean ====
section
/-! DEFINITION. The operand forms: register operands (spec/10_state.md R22, R23), the stack pointer as register 7 (R24) and the
stack slot it addresses (spec/43_stack.md R130, R133, R134). -/

namespace Sys2Proof.Machine

/-- The byte register `i` holds (R21). -/
def State.reg (s : State) (i : Fin 8) : Byte := s.regs[i]

/-- `x[i]`: the register operand byte `i` taken whole; outside 0 to 7 it raises InvalidRegister(i) (R22; spec/30_encoding.md R64). -/
def readReg (i : Byte) (s : State) : Except Cause Byte :=
  if h : i.toNat < 8 then .ok (s.reg ⟨i.toNat, h⟩) else .error (.invalidRegister i)

/-- `x[i] <- v`: register `i` takes `v mod 256`; outside 0 to 7 it raises InvalidRegister(i) (R23). -/
def writeReg (i : Byte) (v : Int) (s : State) : Except Cause State :=
  if h : i.toNat < 8 then .ok (s.setRegs (s.regs.set i.toNat (byteOf v) h)) else .error (.invalidRegister i)

/-- SP, another spelling of register 7 (R24). -/
def State.sp (s : State) : Byte := s.reg 7

/-- `SP <- v`, the register write of R23 on register 7 (R24). -/
def State.setSp (v : Int) (s : State) : State := s.setRegs (s.regs.set 7 (byteOf v))

/-- The address SP holds: the only data address the core forms (spec/20_memory.md R43). -/
def stackTop (s : State) : Nat := s.sp.toNat

/-- `SP <- (SP - 1) mod 256`, the decrement of PUSH and CALL (spec/43_stack.md R133; log entry 5). -/
def decSp (s : State) : State := s.setSp ((s.sp.toNat : Int) - 1)

/-- `if SP != 0xFF then SP <- SP + 1`, POP's increment with the top boundary (spec/43_stack.md R134). -/
def incSp (s : State) : State := if s.sp = spTop then s else s.setSp ((s.sp.toNat : Int) + 1)

end Sys2Proof.Machine
end

