-- ==== Sys2Proof/Machine/Flags.lean ====
section
/-! DEFINITION. The flag patterns and the one flag computation of the machine (spec/42_alu.md R113). -/

namespace Sys2Proof.Machine

/-- PRESUMED (unsafe, log entry 2). The default instantiation of FL_L, FL_G, FL_E (spec/00_scope.md R6). -/
def flagPatterns : FlagPatterns := { less := 0x04#8, greater := 0x02#8, equal := 0x01#8 }

/-- ALU.CMP's pattern: the bytes compared as unsigned integers, exactly one of the three (R113). -/
def compareFlags (fp : FlagPatterns) (a b : Byte) : Byte :=
  if b.toNat < a.toNat then fp.greater else if a.toNat < b.toNat then fp.less else fp.equal

/-- JEQ's test: the whole FL byte against FL_E (spec/44_control_flow.md R144; log entry 13). -/
def State.isEqual (fp : FlagPatterns) (s : State) : Bool := decide (s.fl = fp.equal)

end Sys2Proof.Machine
end

