-- ==== Sys2Proof/Machine/Alu.lean ====
section
/-! DEFINITION. The ALU and the instructions that call it: ADD, MUL, CMP (spec/42_alu.md). -/

namespace Sys2Proof.Machine

/-- The operation names the ALU may be given: its three, or any other name (R110, R114). -/
inductive AluOp where
  | add
  | mul
  | cmp
  | other (name : String)
  deriving DecidableEq, Repr

/-- What the ALU returns: a byte for ADD and MUL, a flag pattern for CMP (R110). -/
inductive AluResult where
  | byte (v : Byte)
  | flags (v : Byte)
  deriving DecidableEq, Repr

/-- The ALU, a pure function of an operation name and two bytes (R110): ADD (R111), MUL (R112), CMP (R113); any other name fails with
UnsupportedOperation (R114). -/
def alu (fp : FlagPatterns) (op : AluOp) (a b : Byte) : Except Cause AluResult :=
  match op with
  | .add => .ok (.byte (byteOf ((a.toNat : Int) + b.toNat)))
  | .mul => .ok (.byte (byteOf ((a.toNat : Int) * b.toNat)))
  | .cmp => .ok (.flags (compareFlags fp a b))
  | .other name => .error (.unsupportedOperation name)

/-- The handler stores what the ALU returned: a byte in the destination register, a pattern in FL (R110; spec/90_conflicts.md C9). -/
def storeAluResult (regA : Byte) (r : AluResult) (s : State) : Except Cause State :=
  match r with
  | .byte v => writeReg regA v.toNat s
  | .flags v => .ok (s.setFl v)

/-- The common handler of ADD, MUL and CMP: read regA, read regB, call the ALU, store, pc + 3 (R115, R116, R117). -/
def aluHandler (fp : FlagPatterns) (op : AluOp) (regA regB : Byte) (s : State) : Except Cause State := do
  let a ← readReg regA s
  let b ← readReg regB s
  let r ← alu fp op a b
  let t ← storeAluResult regA r s
  .ok (t.advance 3)

/-- ADD regA, regB (R115). -/
def execAdd (regA regB : Byte) (s : State) : Host.Outcome State Fault Refusal :=
  commit s (aluHandler flagPatterns .add regA regB s)

/-- MUL regA, regB (R116). -/
def execMul (regA regB : Byte) (s : State) : Host.Outcome State Fault Refusal :=
  commit s (aluHandler flagPatterns .mul regA regB s)

/-- CMP regA, regB (R117). -/
def execCmp (regA regB : Byte) (s : State) : Host.Outcome State Fault Refusal :=
  commit s (aluHandler flagPatterns .cmp regA regB s)

end Sys2Proof.Machine
end

