-- ==== Sys2Proof/Machine/ControlFlow.lean ====
section
/-! DEFINITION. HLT (spec/40_fetch_dispatch.md R90) and the control transfers CALL, RET, JMP, JEQ (spec/44_control_flow.md). Targets
are taken as they are and are not checked until they are fetched (R140). -/

namespace Sys2Proof.Machine

/-- R90: `RUN <- Halted`, PC unchanged. -/
def hltHandler (s : State) : Except Cause State := .ok (s.setRun .halted)

/-- HLT (R90). -/
def execHlt (s : State) : Host.Outcome State Fault Refusal :=
  commit s (hltHandler s)

/-- R141: decrement SP, write the return address pc + 2 at the new SP, read the register after that, jump. The return address is a
byte already whenever the fetch succeeded (pc at most 253); `byteOf` is the identity there. -/
def callHandler (reg : Byte) (s : State) : Except Cause State := do
  let t := decSp s
  let u ← writeMem (stackTop t) (byteOf ((s.pc : Int) + 2)) t
  let target ← readReg reg u
  .ok (u.setPc target.toNat)

/-- CALL reg (R141). -/
def execCall (reg : Byte) (s : State) : Host.Outcome State Fault Refusal :=
  commit s (callHandler reg s)

/-- R142: `pc <- MemRead(SP, 1)`; SP is not changed. -/
def retHandler (s : State) : Except Cause State := do
  let target ← readMem (stackTop s) s
  .ok (s.setPc target.toNat)

/-- RET (R142). -/
def execRet (s : State) : Host.Outcome State Fault Refusal :=
  commit s (retHandler s)

/-- R143: `pc <- x[reg]`. -/
def jmpHandler (reg : Byte) (s : State) : Except Cause State := do
  let target ← readReg reg s
  .ok (s.setPc target.toNat)

/-- JMP reg (R143). -/
def execJmp (reg : Byte) (s : State) : Host.Outcome State Fault Refusal :=
  commit s (jmpHandler reg s)

/-- R144: jump if FL is the pattern FL_E; else pc + 2, and then the register is not read. -/
def jeqHandler (fp : FlagPatterns) (reg : Byte) (s : State) : Except Cause State :=
  if s.isEqual fp then jmpHandler reg s else .ok (s.advance 2)

/-- JEQ reg (R144). -/
def execJeq (reg : Byte) (s : State) : Host.Outcome State Fault Refusal :=
  commit s (jeqHandler flagPatterns reg s)

end Sys2Proof.Machine
end

