-- ==== Sys2Proof/Machine/DataMovement.lean ====
section
/-! DEFINITION. LDI and PRN (spec/41_data_movement_output.md). -/

namespace Sys2Proof.Machine

/-- R100: `x[reg] <- value; pc <- pc + 3`. -/
def ldiHandler (reg value : Byte) (s : State) : Except Cause State := do
  let t ← writeReg reg value.toNat s
  .ok (t.advance 3)

/-- LDI reg, value (R100). -/
def execLdi (reg value : Byte) (s : State) : Host.Outcome State Fault Refusal :=
  commit s (ldiHandler reg value s)

/-- R101: `Out(x[reg]); pc <- pc + 2`. -/
def prnHandler (reg : Byte) (s : State) : Except Cause State := do
  let v ← readReg reg s
  .ok ((s.emit v).advance 2)

/-- PRN reg (R101). -/
def execPrn (reg : Byte) (s : State) : Host.Outcome State Fault Refusal :=
  commit s (prnHandler reg s)

end Sys2Proof.Machine
end

