-- ==== Sys2Proof/Machine/Stack.lean ====
section
/-! DEFINITION. PUSH and POP (spec/43_stack.md). The micro-operations run in the source's order, which settles register 7 as the
operand (R135; log entry 5). -/

namespace Sys2Proof.Machine

/-- R131: decrement SP, read the register after that, write at the new SP, pc + 2. -/
def pushHandler (reg : Byte) (s : State) : Except Cause State := do
  let t := decSp s
  let v ← readReg reg t
  let u ← writeMem (stackTop t) v t
  .ok (u.advance 2)

/-- PUSH reg (R131). -/
def execPush (reg : Byte) (s : State) : Host.Outcome State Fault Refusal :=
  commit s (pushHandler reg s)

/-- R132: read at SP, write the register, increment SP unless it is then 0xFF, pc + 2. -/
def popHandler (reg : Byte) (s : State) : Except Cause State := do
  let v ← readMem (stackTop s) s
  let t ← writeReg reg v.toNat s
  .ok ((incSp t).advance 2)

/-- POP reg (R132). -/
def execPop (reg : Byte) (s : State) : Host.Outcome State Fault Refusal :=
  commit s (popHandler reg s)

end Sys2Proof.Machine
end

