-- ==== Sys2Proof/WellFormed.lean ====
section
/-! DEFINITION. Which instruction terms name registers that exist. It is no condition for decoding or execution: an instruction
with a bad register operand decodes, runs its handler and faults there (spec/30_encoding.md R69). -/

namespace Sys2Proof

/-- A register operand byte is valid only at 0 to 7; no bits are masked off (spec/30_encoding.md R64). -/
def validReg (r : Byte) : Bool := decide (r.toNat < 8)

/-- Every register operand of the instruction is valid. LDI's value is any byte (R65). -/
def Instr.wellFormed : Instr → Bool
  | .hlt => true
  | .ldi reg _ => validReg reg
  | .prn reg => validReg reg
  | .add regA regB => validReg regA && validReg regB
  | .mul regA regB => validReg regA && validReg regB
  | .cmp regA regB => validReg regA && validReg regB
  | .push reg => validReg reg
  | .pop reg => validReg reg
  | .call reg => validReg reg
  | .ret => true
  | .jmp reg => validReg reg
  | .jeq reg => validReg reg

end Sys2Proof
end

