-- ==== Sys2Proof/Decode.lean ====
section
/-! DEFINITION. The decoder and the encoder (spec/30_encoding.md, spec/40_fetch_dispatch.md section 3), both under any
instantiation of the open parameter OPC, and at the spec's default one. -/

namespace Sys2Proof

/-- PRESUMED (unsafe, log entry 1). The default instantiation of OPC (spec/00_scope.md R5, spec/30_encoding.md R63): the source
gives no opcode byte; the spec offers these from general knowledge. -/
def defaultOpc : OpcodeMap
  | .hlt => 0x01#8
  | .ldi => 0x82#8
  | .prn => 0x47#8
  | .add => 0xA0#8
  | .mul => 0xA2#8
  | .cmp => 0xA7#8
  | .push => 0x45#8
  | .pop => 0x46#8
  | .call => 0x50#8
  | .ret => 0x11#8
  | .jmp => 0x54#8
  | .jeq => 0x55#8

/-- The eleven entries of the dispatch table; HLT is tested before it (spec/40_fetch_dispatch.md R84, R85). -/
def dispatchTable : List Mnemonic :=
  [.ldi, .prn, .add, .mul, .cmp, .push, .pop, .call, .ret, .jmp, .jeq]

/-- The halt test, then the dispatch-table lookup, by exact match on all eight bits (R84, R85; spec/30_encoding.md R62). -/
def lookupOpcode (opc : OpcodeMap) (ir : Byte) : Option Mnemonic :=
  if ir = opc .hlt then some .hlt else dispatchTable.find? (fun m => opc m == ir)

/-- The instruction a mnemonic makes of the two fetched operand bytes: the format tables of spec/30_encoding.md R61. Bytes a format
does not use are dropped (R67). -/
def assemble (m : Mnemonic) (opa opb : Byte) : Instr :=
  match m with
  | .hlt => .hlt
  | .ldi => .ldi opa opb
  | .prn => .prn opa
  | .add => .add opa opb
  | .mul => .mul opa opb
  | .cmp => .cmp opa opb
  | .push => .push opa
  | .pop => .pop opa
  | .call => .call opa
  | .ret => .ret
  | .jmp => .jmp opa
  | .jeq => .jeq opa

/-- Why three bytes decode to no instruction. -/
inductive DecodeError where
  /-- Byte 0 is neither OPC_HLT nor a key of the dispatch table (spec/40_fetch_dispatch.md R86). -/
  | unknownInstruction (ir : Byte)
  deriving DecidableEq, Repr

/-- The decoder: the three bytes every fetch reads (spec/40_fetch_dispatch.md R81), under the opcode bytes `opc`. -/
def decodeWith (opc : OpcodeMap) (ir opa opb : Byte) : Except DecodeError Instr :=
  match lookupOpcode opc ir with
  | some m => .ok (assemble m opa opb)
  | none => .error (.unknownInstruction ir)

/-- The decoder at the default opcode bytes. -/
def decode (ir opa opb : Byte) : Except DecodeError Instr := decodeWith defaultOpc ir opa opb

/-- The row of the opcode map an instruction belongs to (spec/30_encoding.md R63). -/
def Instr.mnemonic : Instr → Mnemonic
  | .hlt => .hlt
  | .ldi _ _ => .ldi
  | .prn _ => .prn
  | .add _ _ => .add
  | .mul _ _ => .mul
  | .cmp _ _ => .cmp
  | .push _ => .push
  | .pop _ => .pop
  | .call _ => .call
  | .ret => .ret
  | .jmp _ => .jmp
  | .jeq _ => .jeq

/-- The operand bytes in the order they follow the opcode (spec/30_encoding.md R61, spec/20_memory.md R44). -/
def Instr.operandBytes : Instr → List Byte
  | .hlt => []
  | .ldi reg value => [reg, value]
  | .prn reg => [reg]
  | .add regA regB => [regA, regB]
  | .mul regA regB => [regA, regB]
  | .cmp regA regB => [regA, regB]
  | .push reg => [reg]
  | .pop reg => [reg]
  | .call reg => [reg]
  | .ret => []
  | .jmp reg => [reg]
  | .jeq reg => [reg]

/-- The length column of the opcode map (spec/30_encoding.md R63): it comes from the table, never from the opcode's bits. -/
def Mnemonic.length : Mnemonic → Nat
  | .hlt => 1
  | .ldi => 3
  | .prn => 2
  | .add => 3
  | .mul => 3
  | .cmp => 3
  | .push => 2
  | .pop => 2
  | .call => 2
  | .ret => 1
  | .jmp => 2
  | .jeq => 2

/-- The encoder: the bytes of an instruction, the opcode at the lowest address (spec/30_encoding.md R60, R61). -/
def encodeWith (opc : OpcodeMap) (i : Instr) : List Byte := opc i.mnemonic :: i.operandBytes

/-- The encoder at the default opcode bytes. -/
def encode (i : Instr) : List Byte := encodeWith defaultOpc i

/-- Byte `k` of an instruction given as one number, bit 0 the least significant bit of byte 0; the bits from `nbits` up are 0. -/
def tableByte (nbits w k : Nat) : Byte := BitVec.ofNat 8 ((w % 2 ^ nbits) / 2 ^ (8 * k))

/-- The instruction the decoder reads from a row's bits as spec/opcode_table.json numbers them. -/
def decodeTableWord (nbits w : Nat) : Option Instr :=
  match decode (tableByte nbits w 0) (tableByte nbits w 1) (tableByte nbits w 2) with
  | .ok i => some i
  | .error _ => none

end Sys2Proof
end

