-- ==== Sys2Proof/Machine/Fetch.lean ====
section
/-! DEFINITION. The fetch unit and the shape of one step (spec/40_fetch_dispatch.md sections 1, 2, 5). -/

namespace Sys2Proof.Machine

/-- The three bytes of one fetch; they live only within one step (spec/10_state.md R36). -/
structure Fetched where
  ir : Byte
  opa : Byte
  opb : Byte
  deriving DecidableEq, Repr

/-- Three reads at pc, pc + 1, pc + 2 in this order, unconditionally, addresses not wrapped (R81, R82; log entry 4). -/
def fetch (s : State) : Except Cause Fetched := do
  let ir ← readMem s.pc s
  let opa ← readMem (s.pc + 1) s
  let opb ← readMem (s.pc + 2) s
  .ok { ir := ir, opa := opa, opb := opb }

/-- The fault a decoding failure raises (R86). -/
def decodeCause : DecodeError → Cause
  | .unknownInstruction ir => .unknownInstruction ir

/-- The whole step (R92) over a decoder and the handlers: no step unless RUN = Running (R80), then fetch, decode, execute; the first
fault ends it (spec/60_exceptions.md R168). -/
def stepBy (dec : Byte → Byte → Byte → Except DecodeError Instr)
    (handlers : Instr → State → Host.Outcome State Fault Refusal) (s : State) : Host.Outcome State Fault Refusal :=
  match s.run with
  | .halted => .fault .coreHalted
  | .faulted => .fault .coreFaulted
  | .running =>
    match fetch s with
    | .error c => .next (takeFault c s)
    | .ok f =>
      match dec f.ir f.opa f.opb with
      | .error e => .next (takeFault (decodeCause e) s)
      | .ok i => handlers i s

/-- Three bytes placed at PC, PC + 1, PC + 2. -/
def placeAtPc (b0 b1 b2 : Byte) (s : State) : State :=
  s.setMem (((s.mem.write s.pc b0).write (s.pc + 1) b1).write (s.pc + 2) b2)

end Sys2Proof.Machine
end

