-- ==== Sys2Proof/Machine/Step.lean ====
section
/-! DEFINITION. One step of the core at the default opcode bytes and flag patterns (spec/40_fetch_dispatch.md R92). -/

namespace Sys2Proof.Machine

/-- One step (R80, R92). -/
def step (s : State) : Host.Outcome State Fault Refusal := stepBy decode exec s

/-- `s` with one instruction's bytes stored where the next step fetches (log entry 10). The fetch reads three bytes at PC; only these
cells change. The next step runs the instruction when `s` has a step at all: RUN = Running and PC at most 253. -/
def State.withFetchWord (s : State) (nbits w : Nat) : State :=
  placeAtPc (tableByte nbits w 0) (tableByte nbits w 1) (tableByte nbits w 2) s

end Sys2Proof.Machine
end

