-- ==== Sys2Proof/Machine/HostInterface.lean ====
section
/-! DEFINITION. What the host does to the core and sees of it: RESET, LOAD, STATUS, TRACE and the end of a run (spec/00_scope.md R7,
spec/70_reset_and_hazards.md R190 to R196). OUT is the field `outlog`. The host has no move while the core runs (R195). -/

namespace Sys2Proof.Machine

/-- RESET: the whole state is discarded, from any run state (R190, spec/10_state.md R31). -/
def hostReset (_ : State) : State := State.reset

/-- LOAD from address `k` on: each byte by MemWrite (R191). Past address 255 the write raises OutOfRange (R192); the bytes written
before it stay (DESIGN CHOICE, log entry 11). -/
def loadFrom : Nat → List Byte → State → State
  | _, [], s => s
  | k, b :: rest, s =>
    match writeMem k b s with
    | .ok t => loadFrom (k + 1) rest t
    | .error c => takeFault c s

/-- RESET then LOAD of a program (R190, R191). -/
def boot (program : List Byte) : State := loadFrom loadBase program State.reset

/-- The start of a run: with a program the core starts; with none, ProgramFileMissing, and the core never runs (R166; log entry 12). -/
def hostStart (program : Option (List Byte)) : Except Cause State :=
  match program with
  | some p => .ok (boot p)
  | none => .error .programFileMissing

/-- STATUS: the run state and, when Faulted, the cause (R7). -/
def status (s : State) : RunState × Option Cause := (s.run, if s.run = .faulted then s.cause else none)

/-- One line of the optional TRACE interface: PC, the three bytes fetched there, the eight registers (spec/60_exceptions.md R177). -/
structure TraceLine where
  pc : Nat
  bytes : Fetched
  regs : Vector Byte 8
  deriving DecidableEq, Repr

/-- The trace line of a state. DESIGN CHOICE (unsafe, log entry 15), three points R177 leaves open: it is sampled before the handler; there is
none where the fetch faults; RUN is not tested, so a Halted or Faulted state, which has no step to be sampled at, shows the line of its PC. -/
def traceLine (s : State) : Option TraceLine :=
  match fetch s with
  | .ok f => some { pc := s.pc, bytes := f, regs := s.regs }
  | .error _ => none

/-- The open host parameters EXIT_UNKNOWN, EXIT_NOFILE, EXIT_INTERNAL (R172). -/
structure ExitCodes where
  unknown : Nat
  noFile : Nat
  internal : Nat
  deriving DecidableEq, Repr

/-- R172's constraints. -/
abbrev ExitCodes.Valid (e : ExitCodes) : Prop := e.unknown ≠ 0 ∧ e.noFile ≠ 0 ∧ e.unknown ≠ e.noFile

/-- The exit status of a fatal cause (R172; UnsupportedOperation, which no program raises, is given EXIT_INTERNAL, log entry 14). -/
def causeExit (e : ExitCodes) : Cause → Nat
  | .unknownInstruction _ => e.unknown
  | .programFileMissing => e.noFile
  | .outOfRange _ => e.internal
  | .invalidRegister _ => e.internal
  | .unsupportedOperation _ => e.internal

/-- What the surrounding process reports of a state: nothing while it runs, 0 after HLT, else the cause's code (R172). A Faulted state with no
cause latched, which no run reaches, has none (DESIGN CHOICE, log entry 14). -/
def exitStatus (e : ExitCodes) (s : State) : Option Nat :=
  match s.run with
  | .running => none
  | .halted => some 0
  | .faulted => s.cause.map (causeExit e)

end Sys2Proof.Machine
end

