-- ==== Sys2Proof/Machine/Instantiation.lean ====
section
/-! DEFINITION. The same machine under any instantiation of the spec's open parameters: "the model therefore takes as an argument a
function OPC" and "the three byte values as arguments" (spec/00_scope.md R5, R6). `step` is `stepWith defaultOpc flagPatterns`
(Laws/Step.lean). -/

namespace Sys2Proof.Machine

/-- The handlers under any flag patterns: only CMP and JEQ depend on them (spec/10_state.md R30). -/
def handlerWith (fp : FlagPatterns) (i : Instr) (s : State) : Except Cause State :=
  match i with
  | .hlt => hltHandler s
  | .ldi reg value => ldiHandler reg value s
  | .prn reg => prnHandler reg s
  | .add regA regB => aluHandler fp .add regA regB s
  | .mul regA regB => aluHandler fp .mul regA regB s
  | .cmp regA regB => aluHandler fp .cmp regA regB s
  | .push reg => pushHandler reg s
  | .pop reg => popHandler reg s
  | .call reg => callHandler reg s
  | .ret => retHandler s
  | .jmp reg => jmpHandler reg s
  | .jeq reg => jeqHandler fp reg s

/-- The meanings under any flag patterns; `exec` is this at `flagPatterns` (Laws/Step.lean). -/
def execWith (fp : FlagPatterns) (i : Instr) (s : State) : Host.Outcome State Fault Refusal :=
  commit s (handlerWith fp i s)

/-- One step under any opcode bytes and flag patterns (R5, R6, spec/40_fetch_dispatch.md R92). -/
def stepWith (opc : OpcodeMap) (fp : FlagPatterns) (s : State) : Host.Outcome State Fault Refusal :=
  stepBy (decodeWith opc) (execWith fp) s

/-- The value FL has under the patterns `q` where it has `v` under the patterns `p`. -/
def relabelFl (p q : FlagPatterns) (v : Byte) : Byte :=
  if v = p.less then q.less else if v = p.greater then q.greater else if v = p.equal then q.equal else v

end Sys2Proof.Machine
end

