-- ==== Sys2Proof/Safety.lean ====
section
/-! DEFINITION. What counts as a legal state and a safe run, and the words the statements use: frames, a fault taken, the registers
an instruction uses. -/

namespace Sys2Proof.Machine

/-- The invariant of the step: memory in canonical form (the model's own), PC in 0 to 256 (spec/10_state.md R28), FL one of its four
values (R29), CAUSE latched exactly in Faulted (R32). -/
structure Inv (s : State) : Prop where
  memory : s.mem.wf = true
  pcRange : s.pc ≤ 256
  flags : flagPatterns.Legal s.fl
  causeLatched : s.run = .faulted ↔ s.cause.isSome = true

/-- A safe end of a run: by HLT. A Faulted state is never a successful end (spec/70_reset_and_hazards.md R196). -/
def SafeEnd (s : State) : Prop := s.run = .halted

/-- The operand byte that names register `i`. -/
def regByte (i : Fin 8) : Byte := BitVec.ofNat 8 i.val

/-- Every register but those listed is unchanged. -/
def SameRegsBut (written : List (Fin 8)) (s t : State) : Prop := ∀ j : Fin 8, j ∉ written → t.reg j = s.reg j

/-- Every byte of memory is unchanged. -/
def SameMem (s t : State) : Prop := ∀ a : Nat, t.mem.read a = s.mem.read a

/-- Every byte of memory but the one at `x` is unchanged. -/
def SameMemBut (x : Nat) (s t : State) : Prop := ∀ a : Nat, a ≠ x → t.mem.read a = s.mem.read a

/-- RUN and CAUSE are unchanged. -/
def SameStatus (s t : State) : Prop := t.run = s.run ∧ t.cause = s.cause

/-- The fault `c` has been taken in `s`: RUN and CAUSE record it, everything else is as it was (spec/60_exceptions.md R167, R170). -/
structure FaultTaken (c : Cause) (s t : State) : Prop where
  run : t.run = .faulted
  cause : t.cause = some c
  regs : SameRegsBut [] s t
  mem : SameMem s t
  pc : t.pc = s.pc
  fl : t.fl = s.fl
  outlog : t.outlog = s.outlog

/-- The register operand bytes an instruction uses in state `s`, in the order it uses them: the table of spec/10_state.md R25. -/
def usedRegs (i : Instr) (s : State) : List Byte :=
  match i with
  | .hlt => []
  | .ldi reg _ => [reg]
  | .prn reg => [reg]
  | .add regA regB => [regA, regB]
  | .mul regA regB => [regA, regB]
  | .cmp regA regB => [regA, regB]
  | .push reg => [reg]
  | .pop reg => [reg]
  | .call reg => [reg]
  | .ret => []
  | .jmp reg => [reg]
  | .jeq reg => if s.fl = flagPatterns.equal then [reg] else []

/-- The first register operand byte an instruction uses that names no register, if there is one (spec/60_exceptions.md R164, R168). -/
def badOperand (i : Instr) (s : State) : Option Byte := (usedRegs i s).find? (fun r => !validReg r)

/-- What the step from `s` puts on OUT: the register's byte if its instruction is a PRN that does not fault (spec/41 R101, R102). -/
def emitted (s : State) : List Byte :=
  match fetch s with
  | .error _ => []
  | .ok f =>
    match decode f.ir f.opa f.opb with
    | .ok (.prn reg) => match readReg reg s with
      | .ok v => [v]
      | .error _ => []
    | _ => []

/-- `n` steps lead from `s` to `t` (spec/70_reset_and_hazards.md R196). -/
def StepsTo : Nat → State → State → Prop
  | 0, s, t => t = s
  | n + 1, s, t => ∃ u, step s = .next u ∧ StepsTo n u t

/-- What the first `n` steps from `s` put on OUT, in program order. -/
def emittedBy : Nat → State → List Byte
  | 0, _ => []
  | n + 1, s =>
    match step s with
    | .next t => emitted s ++ emittedBy n t
    | _ => []

end Sys2Proof.Machine
end

