-- ==== Sys2Proof/Certificates/Slice0/Obligations.lean ====
section
/-! DEFINITION. The statements for the provers. A register operand that names a register is `regByte i` for `i : Fin 8` (0 to 7, the stack
pointer among them); one that does not is any byte of 8 or more. `s.mem.wf = true` is the memory's canonical form, which every step
keeps (`Obligations.StepKeepsInvariant`) and reset has. -/

open Sys2Proof Sys2Proof.Machine

/-! ### Encoding and decoding -/

/-- Under any distinct opcode bytes, three fetched bytes decode to an instruction exactly when they begin with its encoding: no bit is
dropped, no other instruction is read, unused operand bytes do not matter (spec/30_encoding.md sections 1 to 3). -/
def Obligations.DecodeAgreesWithEncode : Prop :=
  ∀ opc : OpcodeMap, opc.Distinct → ∀ (i : Instr) (ir opa opb : Byte),
    decodeWith opc ir opa opb = .ok i ↔ encodeWith opc i <+: [ir, opa, opb]

/-- R61: the four formats, byte by byte, and byte k of an instruction at address pc + k. -/
def Obligations.FormatsLayOutTheBytes : Prop :=
  (∀ (opc : OpcodeMap) (a b : Byte),
    encodeWith opc .hlt = [opc .hlt] ∧ encodeWith opc .ret = [opc .ret] ∧
    encodeWith opc (.prn a) = [opc .prn, a] ∧ encodeWith opc (.push a) = [opc .push, a] ∧
    encodeWith opc (.pop a) = [opc .pop, a] ∧ encodeWith opc (.call a) = [opc .call, a] ∧
    encodeWith opc (.jmp a) = [opc .jmp, a] ∧ encodeWith opc (.jeq a) = [opc .jeq, a] ∧
    encodeWith opc (.add a b) = [opc .add, a, b] ∧ encodeWith opc (.mul a b) = [opc .mul, a, b] ∧
    encodeWith opc (.cmp a b) = [opc .cmp, a, b] ∧ encodeWith opc (.ldi a b) = [opc .ldi, a, b]) ∧
  (∀ (s : State) (f : Fetched), fetch s = .ok f →
    f.ir = s.mem.read s.pc ∧ f.opa = s.mem.read (s.pc + 1) ∧ f.opb = s.mem.read (s.pc + 2))

/-- Words written out from the opcode map at the default opcode bytes, which are PRESUMED (log entry 1; spec/30_encoding.md section 2,
spec/95_test_vectors.md): a sanity check. -/
def Obligations.WordsOfTheOpcodeMapDecode : Prop :=
  decode 0b00000001#8 0x00#8 0x00#8 = .ok .hlt ∧
  decode 0b10000010#8 0x00#8 0x08#8 = .ok (.ldi 0#8 8#8) ∧
  decode 0b01000111#8 0x05#8 0xFF#8 = .ok (.prn 5#8) ∧
  decode 0b10100111#8 0x00#8 0x02#8 = .ok (.cmp 0#8 2#8) ∧
  decode 0b01000101#8 0x07#8 0x00#8 = .ok (.push 7#8) ∧
  decode 0b00010001#8 0x00#8 0x00#8 = .ok .ret ∧
  decode 0x56#8 0x00#8 0x00#8 = .error (.unknownInstruction 0x56#8)

/-- Under any distinct opcode bytes exactly 244 of the 256 byte values are illegal, and an illegal byte is refused by its value whatever
follows it (spec/30_encoding.md section 4, spec/40_fetch_dispatch.md section 3). -/
def Obligations.IllegalOpcodesAre244 : Prop :=
  ∀ opc : OpcodeMap, opc.Distinct →
    ((List.range 256).filter (fun n => (lookupOpcode opc (BitVec.ofNat 8 n)).isNone)).length = 244 ∧
    ∀ ir opa opb : Byte, (∀ m, opc m ≠ ir) → decodeWith opc ir opa opb = .error (.unknownInstruction ir)

/-! ### The step -/

/-- The core has a step exactly when RUN = Running; in Halted and Faulted there is none, and no instruction is refused
(spec/40_fetch_dispatch.md section 1, spec/10_state.md section 5; the Faulted state is the spec's own decision D12, log entry 7). -/
def Obligations.StepExactlyWhenRunning : Prop :=
  ∀ s : State, ((∃ t, step s = .next t) ↔ s.run = .running) ∧ ∀ r, step s ≠ .refused r

/-- When the bytes at PC decode to an instruction, the step is that instruction's meaning in the same state: fetching moves nothing, and
the step adds nothing around it (spec/40_fetch_dispatch.md sections 3 and 5). -/
def Obligations.StepRunsTheDecodedInstruction : Prop :=
  ∀ (s : State) (i : Instr), s.run = .running → s.pc ≤ 253 →
    decode (s.mem.read s.pc) (s.mem.read (s.pc + 1)) (s.mem.read (s.pc + 2)) = .ok i → step s = exec i s

/-- Under any distinct opcode bytes and any flag patterns, an instruction whose encoding stands in memory at PC is the one the step
runs (spec/40_fetch_dispatch.md section 5, spec/30_encoding.md section 1). -/
def Obligations.EncodedInstructionAtPcRuns : Prop :=
  ∀ (opc : OpcodeMap) (fp : FlagPatterns) (s : State) (i : Instr), opc.Distinct → s.run = .running → s.pc ≤ 253 →
    (∀ (k : Nat) (b : Byte), (encodeWith opc i)[k]? = some b → s.mem.read (s.pc + k) = b) →
    stepWith opc fp s = execWith fp i s

/-- R84: the halt test comes before the table lookup, whatever the opcode bytes: the byte OPC_HLT at PC halts the core and changes
nothing but RUN. -/
def Obligations.HaltTestComesFirst : Prop :=
  ∀ (opc : OpcodeMap) (fp : FlagPatterns) (s : State), s.run = .running → s.pc ≤ 253 → s.mem.read s.pc = opc .hlt →
    ∃ t, stepWith opc fp s = .next t ∧ t.run = .halted ∧ t.cause = s.cause ∧ t.pc = s.pc ∧ t.fl = s.fl ∧
      t.outlog = s.outlog ∧ SameRegsBut [] s t ∧ SameMem s t

/-- A fetch with PC at 254, 255 or 256 takes OutOfRange(256), whatever byte stands there, and changes nothing but RUN and CAUSE
(spec/40_fetch_dispatch.md section 2; the spec's own decisions D5, D10, D12; log entries 4, 6, 7). -/
def Obligations.FetchPastTheTopFaults : Prop :=
  ∀ s : State, s.run = .running → 254 ≤ s.pc → s.pc ≤ 256 →
    ∃ t, step s = .next t ∧ FaultTaken (.outOfRange 256) s t

/-- Under any opcode bytes, a byte at PC that is none of them takes UnknownInstruction of that byte, whatever follows it, and changes
nothing but RUN and CAUSE (spec/40_fetch_dispatch.md section 3; the entry is the spec's own decision D12, log entry 7). -/
def Obligations.UnknownOpcodeFaults : Prop :=
  ∀ (opc : OpcodeMap) (fp : FlagPatterns) (s : State), s.run = .running → s.pc ≤ 253 →
    (∀ m, opc m ≠ s.mem.read s.pc) →
    ∃ t, stepWith opc fp s = .next t ∧ FaultTaken (.unknownInstruction (s.mem.read s.pc)) s t

/-- Every step keeps the invariant, from every state that meets it (canonical memory is the model's own; the PC range is the spec's
decision D6, the legal flags rest on D3, the latch on D12; log entries 3, 4, 7). -/
def Obligations.StepKeepsInvariant : Prop :=
  ∀ s t : State, Inv s → step s = .next t → Inv t

/-- The reset state meets the invariant (spec/10_state.md section 7). The canonical form of memory is the model's own (log entry 17), FL = 0x00
the spec's decision D3 (log entry 3), no cause latched the model's choice (log entry 9). -/
def Obligations.ResetMeetsInvariant : Prop := Inv State.reset

/-- Faults are precise: a step that ends Faulted left everything but RUN and CAUSE as it was (spec/60_exceptions.md section 3; the
spec's own decisions D10, D12; log entries 6, 7). -/
def Obligations.FaultsArePrecise : Prop :=
  ∀ s t : State, step s = .next t → t.run = .faulted → ∃ c, FaultTaken c s t

/-- A step starts in Running; it ends Halted exactly when the fetched opcode is OPC_HLT, and Faulted exactly when a cause is latched
(spec/10_state.md section 5; the spec's own decision D12, log entry 7). -/
def Obligations.RunStateTransitions : Prop :=
  ∀ s t : State, Inv s → step s = .next t →
    s.run = .running ∧
    (t.run = .halted ↔ ∃ f, fetch s = .ok f ∧ f.ir = defaultOpc .hlt) ∧
    (t.run = .faulted ↔ ∃ c, t.cause = some c)

/-- What a step can latch: OutOfRange only from the fetch at PC 254 to 256, never from a data access; never UnsupportedOperation or
ProgramFileMissing (spec/20_memory.md section 2, spec/60_exceptions.md section 2; the fetch bound is the spec's decision D5,
the latch D12; log entries 4, 7, 16). -/
def Obligations.OnlyTheFetchIsOutOfRange : Prop :=
  ∀ (s t : State) (c : Cause), Inv s → step s = .next t → t.cause = some c →
    (∀ a, c = .outOfRange a → 254 ≤ s.pc ∧ a = 256) ∧
    (∀ name, c ≠ .unsupportedOperation name) ∧ c ≠ .programFileMissing

/-- PC becomes 256 only after a three-byte instruction at 253 (spec/10_state.md section 3; the spec's own decision D6, log entry 4). -/
def Obligations.PcReaches256OnlyFrom253 : Prop :=
  ∀ s t : State, Inv s → s.pc ≤ 255 → step s = .next t → t.pc = 256 →
    s.pc = 253 ∧ ∃ i, decode (s.mem.read 253) (s.mem.read 254) (s.mem.read 255) = .ok i ∧ (encode i).length = 3

/-- R102: along any run, what stands on OUT is what stood there before followed by the values of the PRNs executed, in order; a PRN that
faults emits nothing and nothing is withdrawn by a later fault or halt. -/
def Obligations.OutputIsThePrintedValuesInOrder : Prop :=
  ∀ (n : Nat) (s t : State), StepsTo n s t → t.outlog = s.outlog ++ emittedBy n s

/-! ### The primitives -/

/-- R41, R42: MemRead and MemWrite at any integer address. -/
def Obligations.MemoryAccessPrimitives : Prop :=
  ∀ (s : State) (a : Nat) (v : Byte), s.mem.wf = true →
    (a ≤ 255 → readMem a s = .ok (s.mem.read a) ∧
      ∃ t, writeMem a v s = .ok t ∧ readMem a t = .ok v ∧ (∀ b, b ≠ a → readMem b t = readMem b s) ∧
        t = s.setMem t.mem) ∧
    (255 < a → readMem a s = .error (.outOfRange a) ∧ writeMem a v s = .error (.outOfRange a))

/-- R22, R23: register read and write at any operand byte; a write stores its value mod 256. -/
def Obligations.RegisterAccessPrimitives : Prop :=
  ∀ (s : State) (r : Byte) (v : Int),
    (r.toNat < 8 → (∃ b, readReg r s = .ok b) ∧
      ∃ (t : State) (b : Byte), writeReg r v s = .ok t ∧ readReg r t = .ok b ∧ (b.toNat : Int) = v % 256 ∧
        (∀ q, q ≠ r → readReg q t = readReg q s) ∧ t = s.setRegs t.regs) ∧
    (8 ≤ r.toNat → readReg r s = .error (.invalidRegister r) ∧ writeReg r v s = .error (.invalidRegister r))

/-- R24: SP and register 7 are one location, for reading and for writing, and a write of SP is reduced mod 256. -/
def Obligations.StackPointerIsRegister7 : Prop :=
  ∀ (s : State) (v : Int),
    readReg 7#8 s = .ok s.sp ∧ writeReg 7#8 v s = .ok (s.setSp v) ∧
    ((s.setSp v).sp.toNat : Int) = v % 256 ∧ SameRegsBut [7] s (s.setSp v)

/-- Equal memories are equal data: two memories in canonical form with the same bytes are the same list (the model's own form of
memory, log entry 17; spec/20_memory.md section 2). -/
def Obligations.CanonicalMemoryIsUnique : Prop :=
  ∀ m n : Memory, m.wf = true → n.wf = true → (∀ a, m.read a = n.read a) → m = n

/-- The three ALU operations, for any flag patterns (spec/42_alu.md section 1). That CMP compares unsigned bytes is the spec's own decision D21
(log entry 13). -/
def Obligations.AluOperations : Prop :=
  ∀ (fp : FlagPatterns) (a b : Byte),
    (∃ v, alu fp .add a b = .ok (.byte v) ∧ v.toNat = (a.toNat + b.toNat) % 256) ∧
    (∃ v, alu fp .mul a b = .ok (.byte v) ∧ v.toNat = (a.toNat * b.toNat) % 256) ∧
    (∃ v, alu fp .cmp a b = .ok (.flags v) ∧ (b.toNat < a.toNat → v = fp.greater) ∧
      (a.toNat < b.toNat → v = fp.less) ∧ (a = b → v = fp.equal))

/-! ### Reset and loading -/

/-- The reset table (spec/10_state.md section 7): zero memory, SP = 0xF3, PC = 0, Running, nothing on OUT. That registers 0 to 6 and FL are
0x00 is the spec's own decision (D4, D3; log entry 3), that CAUSE holds none is the model's choice (log entry 9), that zero memory is the empty list the
model's own form of memory (log entry 17). -/
def Obligations.ResetStateIsTheTable : Prop :=
  (∀ a, State.reset.mem.read a = 0x00#8) ∧ State.reset.mem = [] ∧ State.reset.sp = 0xF3#8 ∧
  (∀ j : Fin 8, j ≠ 7 → State.reset.reg j = 0x00#8) ∧ State.reset.pc = 0 ∧ State.reset.fl = 0x00#8 ∧
  State.reset.run = .running ∧ State.reset.cause = none ∧ State.reset.outlog = []

/-- LOAD places program byte k at address k, leaves the other cells zero, writes no register and does not set PC; after an empty program the
first step fetches 0x00 (spec/70_reset_and_hazards.md section 1). That the memory is in canonical form is the model's own (log entry 17). -/
def Obligations.LoadPlacesTheProgram : Prop :=
  (∀ p : List Byte, p.length ≤ 256 →
    (∀ a, (boot p).mem.read a = p.getD a 0x00#8) ∧ (boot p).mem.wf = true ∧
    boot p = State.reset.setMem (boot p).mem) ∧
  fetch (boot []) = .ok ⟨0x00#8, 0x00#8, 0x00#8⟩

/-- A program of more than 256 bytes raises OutOfRange(256) before any step, with registers, PC, FL and OUT as after reset
(spec/70_reset_and_hazards.md section 1; the spec's own decision D17, log entry 11). -/
def Obligations.OverlongProgramFaults : Prop :=
  ∀ p : List Byte, 256 < p.length →
    (boot p).run = .faulted ∧ (boot p).cause = some (.outOfRange 256) ∧ (boot p).regs = State.reset.regs ∧
    (boot p).pc = 0 ∧ (boot p).fl = State.reset.fl ∧ (boot p).outlog = []

/-- What the host reports: nothing while running, 0 after HLT, non-zero codes for an unknown instruction and for a missing file, and these
two differ (spec/60_exceptions.md section 5; the spec's decision D12, log entry 14). -/
def Obligations.ExitStatusTellsTheEndsApart : Prop :=
  ∀ (e : ExitCodes) (s : State) (ir : Byte), e.Valid →
    (s.run = .running → exitStatus e s = none) ∧
    (SafeEnd s → exitStatus e s = some 0) ∧
    causeExit e .programFileMissing ≠ 0 ∧
    (s.run = .faulted → s.cause = some (.unknownInstruction ir) →
      ∃ n, exitStatus e s = some n ∧ n ≠ 0 ∧ n ≠ causeExit e .programFileMissing)

/-! ### The instructions: where each completes, its result and its frame -/

/-- LDI (spec/41_data_movement_output.md, LDI): the register takes the byte, register 7 included. -/
def Obligations.LdiLoadsTheImmediate : Prop :=
  ∀ (s : State) (i : Fin 8) (v : Byte), ∃ t, exec (.ldi (regByte i) v) s = .next t ∧
    t.reg i = v ∧ t.pc = s.pc + 3 ∧ SameRegsBut [i] s t ∧ SameMem s t ∧ t.fl = s.fl ∧ t.outlog = s.outlog ∧ SameStatus s t

/-- PRN (spec/41_data_movement_output.md, PRN): the register's byte is appended to OUT. -/
def Obligations.PrnEmitsTheRegister : Prop :=
  ∀ (s : State) (i : Fin 8), ∃ t, exec (.prn (regByte i)) s = .next t ∧
    t.outlog = s.outlog ++ [s.reg i] ∧ t.pc = s.pc + 2 ∧ SameRegsBut [] s t ∧ SameMem s t ∧ t.fl = s.fl ∧ SameStatus s t

/-- ADD (spec/42_alu.md section 2): the sum mod 256 in regA, both read before the write; FL does not change. -/
def Obligations.AddWrapsAndKeepsFlags : Prop :=
  ∀ (s : State) (i j : Fin 8), ∃ t, exec (.add (regByte i) (regByte j)) s = .next t ∧
    (t.reg i).toNat = ((s.reg i).toNat + (s.reg j).toNat) % 256 ∧ t.pc = s.pc + 3 ∧
    SameRegsBut [i] s t ∧ SameMem s t ∧ t.fl = s.fl ∧ t.outlog = s.outlog ∧ SameStatus s t

/-- MUL (spec/42_alu.md section 2): the low 8 bits of the product in regA; FL does not change. -/
def Obligations.MulKeepsTheLowByte : Prop :=
  ∀ (s : State) (i j : Fin 8), ∃ t, exec (.mul (regByte i) (regByte j)) s = .next t ∧
    (t.reg i).toNat = ((s.reg i).toNat * (s.reg j).toNat) % 256 ∧ t.pc = s.pc + 3 ∧
    SameRegsBut [i] s t ∧ SameMem s t ∧ t.fl = s.fl ∧ t.outlog = s.outlog ∧ SameStatus s t

/-- CMP (spec/42_alu.md section 2): FL becomes the one pattern of the unsigned comparison, no register changes. Unsigned is the spec's own
decision D21 (log entry 13). -/
def Obligations.CmpSetsExactlyOneOutcome : Prop :=
  ∀ (s : State) (i j : Fin 8), ∃ t, exec (.cmp (regByte i) (regByte j)) s = .next t ∧
    ((s.reg j).toNat < (s.reg i).toNat → t.fl = flagPatterns.greater) ∧
    ((s.reg i).toNat < (s.reg j).toNat → t.fl = flagPatterns.less) ∧
    (s.reg i = s.reg j → t.fl = flagPatterns.equal) ∧
    t.pc = s.pc + 3 ∧ SameRegsBut [] s t ∧ SameMem s t ∧ t.outlog = s.outlog ∧ SameStatus s t

/-- PUSH (spec/43_stack.md section 2): SP down by one mod 256, the register's byte at the new SP, every other cell as before. That SP wraps
at 0x00 and that PUSH R7 stores the new SP are the spec's own decisions D7 and D9 (log entry 5). -/
def Obligations.PushStoresBelowTheStack : Prop :=
  ∀ (s : State) (i : Fin 8), s.mem.wf = true → ∃ t, exec (.push (regByte i)) s = .next t ∧
    t.sp.toNat = (s.sp.toNat + 255) % 256 ∧
    t.mem.read (stackTop (decSp s)) = (if i = 7 then t.sp else s.reg i) ∧ stackTop (decSp s) = t.sp.toNat ∧
    SameMemBut (stackTop (decSp s)) s t ∧ SameRegsBut [7] s t ∧ t.pc = s.pc + 2 ∧ t.fl = s.fl ∧ t.outlog = s.outlog ∧
    SameStatus s t

/-- POP (spec/43_stack.md sections 2 and 3): the byte at SP in the register, SP up by one but not from 0xFF; memory unchanged. POP R7 loads SP
and increments what it loaded: the spec's own decision D8 (log entry 5). -/
def Obligations.PopLoadsFromTheStack : Prop :=
  ∀ (s : State) (i : Fin 8), ∃ t, exec (.pop (regByte i)) s = .next t ∧
    (i ≠ 7 → t.reg i = s.mem.read (stackTop s) ∧
      t.sp.toNat = if s.sp.toNat = 255 then 255 else s.sp.toNat + 1) ∧
    (i = 7 → t.sp.toNat = if (s.mem.read (stackTop s)).toNat = 255 then 255 else (s.mem.read (stackTop s)).toNat + 1) ∧
    SameRegsBut [i, 7] s t ∧ SameMem s t ∧ t.pc = s.pc + 2 ∧ t.fl = s.fl ∧ t.outlog = s.outlog ∧ SameStatus s t

/-- CALL (spec/44_control_flow.md section 2): the return address pc + 2 at the new SP, PC to the register's byte. PC is at most 253 whenever a
fetch succeeded. That SP wraps and that CALL R7 jumps to the new SP are the spec's own decisions D7 and D9 (log entry 5). -/
def Obligations.CallSavesTheReturnAddress : Prop :=
  ∀ (s : State) (i : Fin 8), s.mem.wf = true → s.pc ≤ 253 → ∃ t, exec (.call (regByte i)) s = .next t ∧
    t.sp.toNat = (s.sp.toNat + 255) % 256 ∧
    (t.mem.read (stackTop (decSp s))).toNat = s.pc + 2 ∧ stackTop (decSp s) = t.sp.toNat ∧
    t.pc = (if i = 7 then t.sp else s.reg i).toNat ∧
    SameMemBut (stackTop (decSp s)) s t ∧ SameRegsBut [7] s t ∧ t.fl = s.fl ∧ t.outlog = s.outlog ∧ SameStatus s t

/-- R142: RET takes PC from the cell at SP and changes nothing else, SP included; it is one byte and has no fault of its own. -/
def Obligations.RetDoesNotPop : Prop :=
  (∀ opc : OpcodeMap, encodeWith opc .ret = [opc .ret]) ∧
  ∀ s : State, ∃ t, exec .ret s = .next t ∧
    t.pc = (s.mem.read s.sp.toNat).toNat ∧ t.sp = s.sp ∧ SameRegsBut [] s t ∧ SameMem s t ∧ t.fl = s.fl ∧
    t.outlog = s.outlog ∧ SameStatus s t

/-- JMP (spec/44_control_flow.md section 2): PC is the register's byte, unchecked; nothing else changes. -/
def Obligations.JmpTakesTheRegister : Prop :=
  ∀ (s : State) (i : Fin 8), ∃ t, exec (.jmp (regByte i)) s = .next t ∧
    t.pc = (s.reg i).toNat ∧ SameRegsBut [] s t ∧ SameMem s t ∧ t.fl = s.fl ∧ t.outlog = s.outlog ∧ SameStatus s t

/-- JEQ (spec/44_control_flow.md section 2): taken exactly when FL is FL_E (whole byte: the spec's decision D15); not taken, any operand byte
passes, 8 to 255 included (the spec's decision D25; log entry 13). Nothing but PC changes. -/
def Obligations.JeqJumpsOnEqual : Prop :=
  ∀ s : State,
    (∀ i : Fin 8, s.fl = flagPatterns.equal → ∃ t, exec (.jeq (regByte i)) s = .next t ∧
      t.pc = (s.reg i).toNat ∧ SameRegsBut [] s t ∧ SameMem s t ∧ t.fl = s.fl ∧ t.outlog = s.outlog ∧ SameStatus s t) ∧
    (∀ r : Byte, s.fl ≠ flagPatterns.equal → ∃ t, exec (.jeq r) s = .next t ∧
      t.pc = s.pc + 2 ∧ SameRegsBut [] s t ∧ SameMem s t ∧ t.fl = s.fl ∧ t.outlog = s.outlog ∧ SameStatus s t)

/-- HLT (spec/40_fetch_dispatch.md section 4): RUN becomes Halted, PC keeps the address of the HLT, nothing else changes. -/
def Obligations.HltHaltsInPlace : Prop :=
  ∀ s : State, ∃ t, exec .hlt s = .next t ∧
    t.run = .halted ∧ t.pc = s.pc ∧ t.cause = s.cause ∧ SameRegsBut [] s t ∧ SameMem s t ∧ t.fl = s.fl ∧ t.outlog = s.outlog

/-! ### All instructions at once -/

/-- A register operand of 8 or more that the instruction uses takes InvalidRegister of it, the first in the order of use, and changes nothing
but RUN and CAUSE; with none, the instruction completes with no fault (spec/60_exceptions.md sections 2 and 3, spec/10_state.md section 2; the
spec's own decisions D10, D11, D12, D25; log entries 6, 7, 13). -/
def Obligations.BadRegisterOperandFaults : Prop :=
  ∀ (i : Instr) (s : State),
    (∀ r, badOperand i s = some r → ∃ t, exec i s = .next t ∧ FaultTaken (.invalidRegister r) s t) ∧
    (badOperand i s = none → ∃ t, exec i s = .next t ∧ t.cause = s.cause ∧
      t.run = if i = .hlt then .halted else s.run)

/-- The next PC of every instruction that completes without a fault (spec/10_state.md section 3). That the additions are not reduced is the
spec's own decision D6 (log entry 4), that CALL reads its register after the decrement D9 (log entry 5), JEQ's whole-byte test and its
operand unread when not taken D15 and D25 (log entry 13). -/
def Obligations.PcSequencing : Prop :=
  ∀ (i : Instr) (s : State), badOperand i s = none → ∃ t, exec i s = .next t ∧
    (match i with
      | .hlt => t.pc = s.pc
      | .ldi _ _ => t.pc = s.pc + 3
      | .add _ _ => t.pc = s.pc + 3
      | .mul _ _ => t.pc = s.pc + 3
      | .cmp _ _ => t.pc = s.pc + 3
      | .prn _ => t.pc = s.pc + 2
      | .push _ => t.pc = s.pc + 2
      | .pop _ => t.pc = s.pc + 2
      | .call r => ∃ v, readReg r (decSp s) = .ok v ∧ t.pc = v.toNat
      | .ret => ∃ v, readMem s.sp.toNat s = .ok v ∧ t.pc = v.toNat
      | .jmp r => ∃ v, readReg r s = .ok v ∧ t.pc = v.toNat
      | .jeq r => if s.fl = flagPatterns.equal then ∃ v, readReg r s = .ok v ∧ t.pc = v.toNat else t.pc = s.pc + 2)

/-- Only CMP writes FL and only JEQ reads it (spec/10_state.md section 4). Running any instruction with another value of FL changes nothing of
the result but FL itself, provided that for JEQ both values are FL_E or neither is. JEQ does read it: with FL_E and with any other value it
goes to different places, unless its target is the instruction after it. That FL_E is told from every other byte, and not only from the legal
ones, is the spec's own decision D15 (log entry 13). -/
def Obligations.OnlyCmpWritesAndOnlyJeqReadsFlags : Prop :=
  (∀ (i : Instr) (s t : State) (v : Byte), exec i s = .next t →
    ((∀ a b, i ≠ .cmp a b) → t.fl = s.fl) ∧
    ((∀ r, i = .jeq r → (s.fl = flagPatterns.equal ↔ v = flagPatterns.equal)) →
      ∃ u, exec i (s.setFl v) = .next u ∧ u = t.setFl u.fl ∧
        (∀ a b, i = .cmp a b → badOperand i s = none → u.fl = t.fl))) ∧
  (∀ (s : State) (k : Fin 8) (v : Byte), v ≠ flagPatterns.equal → (s.reg k).toNat ≠ s.pc + 2 →
    ∃ t u, exec (.jeq (regByte k)) (s.setFl flagPatterns.equal) = .next t ∧
      exec (.jeq (regByte k)) (s.setFl v) = .next u ∧ t.pc ≠ u.pc)

/-- Memory is written only by PUSH and CALL, one cell, at the decremented stack pointer (spec/20_memory.md section 2; that the
decrement wraps is the spec's own decision D7, log entry 5). -/
def Obligations.OnlyPushAndCallWriteMemory : Prop :=
  ∀ (i : Instr) (s t : State) (a : Nat), exec i s = .next t → t.mem.read a ≠ s.mem.read a →
    a = stackTop (decSp s) ∧ ((∃ r, i = .push r) ∨ ∃ r, i = .call r)

/-- A register changes only where the table of spec/10_state.md section 2 says the instruction writes it: its destination operand, or SP by
PUSH, POP and CALL. -/
def Obligations.RegistersChangeOnlyWhereTheTableSays : Prop :=
  ∀ (i : Instr) (s t : State) (j : Fin 8), exec i s = .next t → t.reg j ≠ s.reg j →
    match i with
    | .ldi r _ => r = regByte j
    | .add r _ => r = regByte j
    | .mul r _ => r = regByte j
    | .push _ => j = 7
    | .pop r => r = regByte j ∨ j = 7
    | .call _ => j = 7
    | .hlt => False
    | .prn _ => False
    | .cmp _ _ => False
    | .ret => False
    | .jmp _ => False
    | .jeq _ => False

/-! ### Two instructions in a row -/

/-- A byte that PUSH stored is what the very next fetch reads where it fetches that cell, and every other fetched byte is as before
(spec/20_memory.md section 9; the wrap of SP and what PUSH R7 stores are the spec's own decisions D7 and D9, log entry 5). -/
def Obligations.PushedByteIsFetchedNext : Prop :=
  ∀ (s t : State) (i : Fin 8) (f : Fetched), s.mem.wf = true → exec (.push (regByte i)) s = .next t → fetch t = .ok f →
    let cell := fun a => if a = stackTop (decSp s) then (decSp s).reg i else s.mem.read a
    f.ir = cell (s.pc + 2) ∧ f.opa = cell (s.pc + 3) ∧ f.opb = cell (s.pc + 4)

/-- PUSH then POP of one register restores it, and SP comes back unless the PUSH wrapped, when it stays at 0xFF (spec/43_stack.md sections 2 and
3; wrapping and register 7 are the spec's own decisions D7 to D9, log entry 5). -/
def Obligations.PushPopRoundTrip : Prop :=
  ∀ (s : State) (i : Fin 8), s.mem.wf = true → ∃ t u, exec (.push (regByte i)) s = .next t ∧
    exec (.pop (regByte i)) t = .next u ∧
    (i ≠ 7 → u.reg i = s.reg i) ∧
    (s.sp ≠ 0x00#8 → u.sp = s.sp) ∧ (s.sp = 0x00#8 → u.sp = 0xFF#8) ∧
    SameRegsBut [7] s u ∧ u.pc = s.pc + 4

/-- CALL then RET resumes at the call site plus 2, and SP ends one lower than before the CALL, because RET does not pop
(spec/44_control_flow.md sections 2 and 3; the wrap of SP and CALL R7 are the spec's own decisions D7 and D9, log entry 5). -/
def Obligations.CallThenRetResumesAfterTheCall : Prop :=
  ∀ (s : State) (i : Fin 8), s.mem.wf = true → s.pc ≤ 253 → ∃ t u, exec (.call (regByte i)) s = .next t ∧
    exec .ret t = .next u ∧ u.pc = s.pc + 2 ∧ u.sp.toNat = (s.sp.toNat + 255) % 256 ∧ SameRegsBut [7] s u ∧
    SameMemBut (stackTop (decSp s)) s u

/-- CMP then JEQ: PC is the target when the bytes are equal, the byte after the JEQ otherwise (spec/42_alu.md section 2,
spec/44_control_flow.md section 2, spec/90_conflicts.md C7). -/
def Obligations.CmpThenJeqJumpsWhenEqual : Prop :=
  ∀ (s : State) (i j k : Fin 8), ∃ t u, exec (.cmp (regByte i) (regByte j)) s = .next t ∧
    exec (.jeq (regByte k)) t = .next u ∧
    u.pc = (if s.reg i = s.reg j then (s.reg k).toNat else s.pc + 5) ∧ SameRegsBut [] s u ∧ SameMem s u

/-! ### The open parameters -/

/-- No result depends on the flag patterns beyond their constraints: under other valid patterns the same step gives the same state, FL
carried over to the other patterns (spec/00_scope.md section 4; the constraints are the spec's own decision D2, the
legal reset value D3; log entries 2, 3). -/
def Obligations.FlagPatternsDoNotMatter : Prop :=
  ∀ (opc : OpcodeMap) (p q : FlagPatterns) (s t : State), p.Valid → q.Valid → p.Legal s.fl →
    stepWith opc p s = .next t →
    stepWith opc q (s.setFl (relabelFl p q s.fl)) = .next (t.setFl (relabelFl p q t.fl))
end

