-- ==== Sys2Proof/Laws/Decode.lean ====
section
/-! SUPPORT. The opcode lookup: exact, and unambiguous under any distinct opcode bytes. -/

namespace Sys2Proof

/-- The halt test and the table together list every mnemonic. -/
theorem mem_dispatchTable (m : Mnemonic) : m = .hlt ∨ m ∈ dispatchTable := by
  cases m <;> simp [dispatchTable]

theorem lookupOpcode_sound {opc : OpcodeMap} {ir : Byte} {m : Mnemonic} (h : lookupOpcode opc ir = some m) : opc m = ir := by
  unfold lookupOpcode at h
  split at h
  · cases h; exact Eq.symm ‹_›
  · simpa using List.find?_some h

theorem lookupOpcode_eq_none_iff (opc : OpcodeMap) (ir : Byte) : lookupOpcode opc ir = none ↔ ∀ m, opc m ≠ ir := by
  constructor
  · intro h m e
    unfold lookupOpcode at h
    split at h
    · cases h
    · rcases mem_dispatchTable m with rfl | hm
      · exact absurd e.symm ‹_›
      · have := (List.find?_eq_none.1 h) m hm
        simp [e] at this
  · intro h
    cases hl : lookupOpcode opc ir with
    | none => rfl
    | some m => exact absurd (lookupOpcode_sound hl) (h m)

theorem lookupOpcode_eq_some_iff {opc : OpcodeMap} (hd : opc.Distinct) (ir : Byte) (m : Mnemonic) :
    lookupOpcode opc ir = some m ↔ opc m = ir := by
  constructor
  · exact lookupOpcode_sound
  · intro e
    cases hl : lookupOpcode opc ir with
    | none => exact absurd e ((lookupOpcode_eq_none_iff opc ir).1 hl m)
    | some n => rw [hd n m ((lookupOpcode_sound hl).trans e.symm)]

theorem defaultOpc_distinct : defaultOpc.Distinct := by
  intro m n
  cases m <;> cases n <;> decide

@[simp] theorem assemble_mnemonic (m : Mnemonic) (opa opb : Byte) : (assemble m opa opb).mnemonic = m := by
  cases m <;> rfl

/-- An instruction's operand bytes are the first of the two fetched after its opcode. -/
theorem assemble_operandBytes (m : Mnemonic) (opa opb : Byte) : (assemble m opa opb).operandBytes <+: [opa, opb] := by
  cases m <;> simp [assemble, Instr.operandBytes]

end Sys2Proof
end

