-- ==== Sys2Proof/Laws/Memory.lean ====
section
/-! SUPPORT. What reading and writing one cell do, and that every write keeps the canonical form. -/

namespace Sys2Proof.Machine

theorem Memory.read_write_other (m : Memory) {a b : Nat} (v : Byte) (h : b ≠ a) :
    (m.write a v).read b = m.read b := by
  induction m with
  | nil => by_cases hv : v = unlistedByte <;> simp [Memory.write, Memory.read, hv, h.symm]
  | cons c rest ih =>
    obtain ⟨k, w⟩ := c
    by_cases h1 : a < k
    · by_cases hv : v = unlistedByte <;> simp [Memory.write, Memory.read, h1, hv, h.symm]
    · by_cases h2 : a = k
      · subst h2
        by_cases hv : v = unlistedByte <;> simp [Memory.write, Memory.read, hv, h.symm]
      · simp [Memory.write, Memory.read, h1, h2, ih]

theorem Memory.wfFrom_cons (lo k : Nat) (w : Byte) (rest : Memory) :
    Memory.wfFrom lo ((k, w) :: rest) = true ↔
      lo ≤ k ∧ k < 256 ∧ w ≠ unlistedByte ∧ Memory.wfFrom (k + 1) rest = true := by
  simp [Memory.wfFrom, and_assoc]

theorem Memory.wfFrom_mono {lo lo' : Nat} {m : Memory} (h : Memory.wfFrom lo m = true) (hl : lo' ≤ lo) :
    Memory.wfFrom lo' m = true := by
  cases m with
  | nil => rfl
  | cons c rest =>
    obtain ⟨k, w⟩ := c
    rw [Memory.wfFrom_cons] at h ⊢
    exact ⟨hl.trans h.1, h.2⟩

/-- Below the first listed address every cell reads as the unlisted byte. -/
theorem Memory.read_below {lo a : Nat} {m : Memory} (h : Memory.wfFrom lo m = true) (ha : a < lo) :
    m.read a = unlistedByte := by
  induction m generalizing lo with
  | nil => rfl
  | cons c rest ih =>
    obtain ⟨k, w⟩ := c
    rw [Memory.wfFrom_cons] at h
    rw [Memory.read, if_neg (by omega)]
    exact ih h.2.2.2 (by omega)

theorem Memory.wfFrom_write {lo a : Nat} {m : Memory} (v : Byte) (h : Memory.wfFrom lo m = true) (hl : lo ≤ a)
    (ha : a < 256) : Memory.wfFrom lo (m.write a v) = true := by
  induction m generalizing lo with
  | nil => by_cases hv : v = unlistedByte <;> simp [Memory.write, Memory.wfFrom, hv, hl, ha]
  | cons c rest ih =>
    obtain ⟨k, w⟩ := c
    have hc := (Memory.wfFrom_cons lo k w rest).1 h
    unfold Memory.write
    split
    · split
      · exact h
      · rw [Memory.wfFrom_cons, Memory.wfFrom_cons]
        exact ⟨hl, ha, ‹_›, by omega, hc.2⟩
    · split
      · split
        · exact Memory.wfFrom_mono hc.2.2.2 (by omega)
        · rw [Memory.wfFrom_cons]
          subst a
          exact ⟨hl, ha, ‹_›, hc.2.2.2⟩
      · rw [Memory.wfFrom_cons]
        exact ⟨hc.1, hc.2.1, hc.2.2.1, ih hc.2.2.2 (by omega)⟩

/-- Every write inside the address space keeps the canonical form. -/
theorem Memory.wf_write {m : Memory} {a : Nat} (v : Byte) (h : m.wf = true) (ha : a < 256) :
    (m.write a v).wf = true :=
  Memory.wfFrom_write v h (Nat.zero_le a) ha

theorem Memory.read_write_same_from {lo a : Nat} {m : Memory} (v : Byte) (h : Memory.wfFrom lo m = true) :
    (m.write a v).read a = v := by
  induction m generalizing lo with
  | nil => by_cases hv : v = unlistedByte <;> simp [Memory.write, Memory.read, hv]
  | cons c rest ih =>
    obtain ⟨k, w⟩ := c
    have hc := (Memory.wfFrom_cons lo k w rest).1 h
    unfold Memory.write
    split
    · split
      · rw [Memory.read, if_neg (by omega), Memory.read_below hc.2.2.2 (by omega)]
        exact Eq.symm ‹_›
      · simp [Memory.read]
    · split
      · split
        · rw [Memory.read_below hc.2.2.2 (by omega)]
          exact Eq.symm ‹_›
        · simp [Memory.read]
      · rw [Memory.read, if_neg (by omega)]
        exact ih hc.2.2.2

/-- A cell reads as what was last written to it (spec/20_memory.md R49). -/
theorem Memory.read_write_same {m : Memory} {a : Nat} (v : Byte) (h : m.wf = true) :
    (m.write a v).read a = v :=
  Memory.read_write_same_from v h

theorem Memory.wf_nil : Memory.wf [] = true := rfl

end Sys2Proof.Machine
end

