-- ==== Sys2Proof/Laws/State.lean ====
section
/-! SUPPORT. One lemma per field per update of State, true by definition, so that no later proof unfolds a record update. -/

namespace Sys2Proof.Machine

@[simp] theorem State.setPc_mem (t : Nat) (s : State) : (s.setPc t).mem = s.mem := rfl
@[simp] theorem State.setPc_regs (t : Nat) (s : State) : (s.setPc t).regs = s.regs := rfl
@[simp] theorem State.setPc_pc (t : Nat) (s : State) : (s.setPc t).pc = t := rfl
@[simp] theorem State.setPc_fl (t : Nat) (s : State) : (s.setPc t).fl = s.fl := rfl
@[simp] theorem State.setPc_run (t : Nat) (s : State) : (s.setPc t).run = s.run := rfl
@[simp] theorem State.setPc_cause (t : Nat) (s : State) : (s.setPc t).cause = s.cause := rfl
@[simp] theorem State.setPc_outlog (t : Nat) (s : State) : (s.setPc t).outlog = s.outlog := rfl

@[simp] theorem State.setFl_mem (v : Byte) (s : State) : (s.setFl v).mem = s.mem := rfl
@[simp] theorem State.setFl_regs (v : Byte) (s : State) : (s.setFl v).regs = s.regs := rfl
@[simp] theorem State.setFl_pc (v : Byte) (s : State) : (s.setFl v).pc = s.pc := rfl
@[simp] theorem State.setFl_fl (v : Byte) (s : State) : (s.setFl v).fl = v := rfl
@[simp] theorem State.setFl_run (v : Byte) (s : State) : (s.setFl v).run = s.run := rfl
@[simp] theorem State.setFl_cause (v : Byte) (s : State) : (s.setFl v).cause = s.cause := rfl
@[simp] theorem State.setFl_outlog (v : Byte) (s : State) : (s.setFl v).outlog = s.outlog := rfl

@[simp] theorem State.setRun_mem (r : RunState) (s : State) : (s.setRun r).mem = s.mem := rfl
@[simp] theorem State.setRun_regs (r : RunState) (s : State) : (s.setRun r).regs = s.regs := rfl
@[simp] theorem State.setRun_pc (r : RunState) (s : State) : (s.setRun r).pc = s.pc := rfl
@[simp] theorem State.setRun_fl (r : RunState) (s : State) : (s.setRun r).fl = s.fl := rfl
@[simp] theorem State.setRun_run (r : RunState) (s : State) : (s.setRun r).run = r := rfl
@[simp] theorem State.setRun_cause (r : RunState) (s : State) : (s.setRun r).cause = s.cause := rfl
@[simp] theorem State.setRun_outlog (r : RunState) (s : State) : (s.setRun r).outlog = s.outlog := rfl

@[simp] theorem State.setMem_mem (m : Memory) (s : State) : (s.setMem m).mem = m := rfl
@[simp] theorem State.setMem_regs (m : Memory) (s : State) : (s.setMem m).regs = s.regs := rfl
@[simp] theorem State.setMem_pc (m : Memory) (s : State) : (s.setMem m).pc = s.pc := rfl
@[simp] theorem State.setMem_fl (m : Memory) (s : State) : (s.setMem m).fl = s.fl := rfl
@[simp] theorem State.setMem_run (m : Memory) (s : State) : (s.setMem m).run = s.run := rfl
@[simp] theorem State.setMem_cause (m : Memory) (s : State) : (s.setMem m).cause = s.cause := rfl
@[simp] theorem State.setMem_outlog (m : Memory) (s : State) : (s.setMem m).outlog = s.outlog := rfl

@[simp] theorem State.setRegs_mem (r : Vector Byte 8) (s : State) : (s.setRegs r).mem = s.mem := rfl
@[simp] theorem State.setRegs_regs (r : Vector Byte 8) (s : State) : (s.setRegs r).regs = r := rfl
@[simp] theorem State.setRegs_pc (r : Vector Byte 8) (s : State) : (s.setRegs r).pc = s.pc := rfl
@[simp] theorem State.setRegs_fl (r : Vector Byte 8) (s : State) : (s.setRegs r).fl = s.fl := rfl
@[simp] theorem State.setRegs_run (r : Vector Byte 8) (s : State) : (s.setRegs r).run = s.run := rfl
@[simp] theorem State.setRegs_cause (r : Vector Byte 8) (s : State) : (s.setRegs r).cause = s.cause := rfl
@[simp] theorem State.setRegs_outlog (r : Vector Byte 8) (s : State) : (s.setRegs r).outlog = s.outlog := rfl

@[simp] theorem State.emit_mem (v : Byte) (s : State) : (s.emit v).mem = s.mem := rfl
@[simp] theorem State.emit_regs (v : Byte) (s : State) : (s.emit v).regs = s.regs := rfl
@[simp] theorem State.emit_pc (v : Byte) (s : State) : (s.emit v).pc = s.pc := rfl
@[simp] theorem State.emit_fl (v : Byte) (s : State) : (s.emit v).fl = s.fl := rfl
@[simp] theorem State.emit_run (v : Byte) (s : State) : (s.emit v).run = s.run := rfl
@[simp] theorem State.emit_cause (v : Byte) (s : State) : (s.emit v).cause = s.cause := rfl
@[simp] theorem State.emit_outlog (v : Byte) (s : State) : (s.emit v).outlog = s.outlog ++ [v] := rfl

@[simp] theorem State.advance_mem (n : Nat) (s : State) : (s.advance n).mem = s.mem := rfl
@[simp] theorem State.advance_regs (n : Nat) (s : State) : (s.advance n).regs = s.regs := rfl
@[simp] theorem State.advance_pc (n : Nat) (s : State) : (s.advance n).pc = s.pc + n := rfl
@[simp] theorem State.advance_fl (n : Nat) (s : State) : (s.advance n).fl = s.fl := rfl
@[simp] theorem State.advance_run (n : Nat) (s : State) : (s.advance n).run = s.run := rfl
@[simp] theorem State.advance_cause (n : Nat) (s : State) : (s.advance n).cause = s.cause := rfl
@[simp] theorem State.advance_outlog (n : Nat) (s : State) : (s.advance n).outlog = s.outlog := rfl

@[simp] theorem takeFault_mem (c : Cause) (s : State) : (takeFault c s).mem = s.mem := rfl
@[simp] theorem takeFault_regs (c : Cause) (s : State) : (takeFault c s).regs = s.regs := rfl
@[simp] theorem takeFault_pc (c : Cause) (s : State) : (takeFault c s).pc = s.pc := rfl
@[simp] theorem takeFault_fl (c : Cause) (s : State) : (takeFault c s).fl = s.fl := rfl
@[simp] theorem takeFault_run (c : Cause) (s : State) : (takeFault c s).run = .faulted := rfl
@[simp] theorem takeFault_cause (c : Cause) (s : State) : (takeFault c s).cause = some c := rfl
@[simp] theorem takeFault_outlog (c : Cause) (s : State) : (takeFault c s).outlog = s.outlog := rfl

@[simp] theorem State.setSp_mem (v : Int) (s : State) : (s.setSp v).mem = s.mem := rfl
@[simp] theorem State.setSp_pc (v : Int) (s : State) : (s.setSp v).pc = s.pc := rfl
@[simp] theorem State.setSp_fl (v : Int) (s : State) : (s.setSp v).fl = s.fl := rfl
@[simp] theorem State.setSp_run (v : Int) (s : State) : (s.setSp v).run = s.run := rfl
@[simp] theorem State.setSp_cause (v : Int) (s : State) : (s.setSp v).cause = s.cause := rfl
@[simp] theorem State.setSp_outlog (v : Int) (s : State) : (s.setSp v).outlog = s.outlog := rfl

@[simp] theorem decSp_mem (s : State) : (decSp s).mem = s.mem := rfl
@[simp] theorem decSp_pc (s : State) : (decSp s).pc = s.pc := rfl
@[simp] theorem decSp_fl (s : State) : (decSp s).fl = s.fl := rfl
@[simp] theorem decSp_run (s : State) : (decSp s).run = s.run := rfl
@[simp] theorem decSp_cause (s : State) : (decSp s).cause = s.cause := rfl
@[simp] theorem decSp_outlog (s : State) : (decSp s).outlog = s.outlog := rfl

@[simp] theorem incSp_mem (s : State) : (incSp s).mem = s.mem := by
  unfold incSp; split <;> rfl
@[simp] theorem incSp_pc (s : State) : (incSp s).pc = s.pc := by
  unfold incSp; split <;> rfl
@[simp] theorem incSp_fl (s : State) : (incSp s).fl = s.fl := by
  unfold incSp; split <;> rfl
@[simp] theorem incSp_run (s : State) : (incSp s).run = s.run := by
  unfold incSp; split <;> rfl
@[simp] theorem incSp_cause (s : State) : (incSp s).cause = s.cause := by
  unfold incSp; split <;> rfl
@[simp] theorem incSp_outlog (s : State) : (incSp s).outlog = s.outlog := by
  unfold incSp; split <;> rfl

@[simp] theorem State.reg_setPc (t : Nat) (s : State) (i : Fin 8) : (s.setPc t).reg i = s.reg i := rfl
@[simp] theorem State.reg_setFl (v : Byte) (s : State) (i : Fin 8) : (s.setFl v).reg i = s.reg i := rfl
@[simp] theorem State.reg_setRun (r : RunState) (s : State) (i : Fin 8) : (s.setRun r).reg i = s.reg i := rfl
@[simp] theorem State.reg_setMem (m : Memory) (s : State) (i : Fin 8) : (s.setMem m).reg i = s.reg i := rfl
@[simp] theorem State.reg_emit (v : Byte) (s : State) (i : Fin 8) : (s.emit v).reg i = s.reg i := rfl
@[simp] theorem State.reg_advance (n : Nat) (s : State) (i : Fin 8) : (s.advance n).reg i = s.reg i := rfl
@[simp] theorem reg_takeFault (c : Cause) (s : State) (i : Fin 8) : (takeFault c s).reg i = s.reg i := rfl

theorem State.sp_eq_reg (s : State) : s.sp = s.reg 7 := rfl

end Sys2Proof.Machine
end

