-- ==== Sys2Proof/Laws/Operands.lean ====
section
/-! SUPPORT. What the shared operations can do: byte arithmetic, register access, memory access, the stack pointer. -/

namespace Sys2Proof.Machine

@[simp] theorem byteOf_toNat (b : Byte) : byteOf (b.toNat : Int) = b := by
  simp [byteOf]

theorem toNat_byteOf (v : Int) : (byteOf v).toNat = (v % 256).toNat := by
  simp [byteOf, BitVec.toNat_ofInt]

/-- Register `i` as an operand byte. -/
theorem regByte_toNat (i : Fin 8) : (BitVec.ofNat 8 i.val).toNat = i.val := by
  have := i.isLt
  simp [BitVec.toNat_ofNat]
  omega

/-- A register operand byte names a register, or is 8 or more. -/
theorem operand_cases (r : Byte) : (∃ i : Fin 8, r = BitVec.ofNat 8 i.val) ∨ 8 ≤ r.toNat := by
  by_cases h : r.toNat < 8
  · exact .inl ⟨⟨r.toNat, h⟩, by simp⟩
  · exact .inr (by omega)

@[simp] theorem readReg_valid (i : Fin 8) (s : State) : readReg (BitVec.ofNat 8 i.val) s = .ok (s.reg i) := by
  unfold readReg
  rw [dif_pos (by rw [regByte_toNat]; exact i.isLt)]
  congr 2
  exact Fin.ext (regByte_toNat i)

@[simp] theorem writeReg_valid (i : Fin 8) (v : Int) (s : State) :
    writeReg (BitVec.ofNat 8 i.val) v s = .ok (s.setRegs (s.regs.set i.val (byteOf v))) := by
  unfold writeReg
  rw [dif_pos (by rw [regByte_toNat]; exact i.isLt)]
  simp only [regByte_toNat]

theorem readReg_invalid {r : Byte} (h : 8 ≤ r.toNat) (s : State) : readReg r s = .error (.invalidRegister r) := by
  unfold readReg
  rw [dif_neg (by omega)]

theorem writeReg_invalid {r : Byte} (h : 8 ≤ r.toNat) (v : Int) (s : State) :
    writeReg r v s = .error (.invalidRegister r) := by
  unfold writeReg
  rw [dif_neg (by omega)]

/-- Reading a register after one register has been written. -/
theorem reg_setRegs_set (s : State) (i j : Fin 8) (v : Byte) :
    (s.setRegs (s.regs.set i.val v)).reg j = if i = j then v else s.reg j := by
  simp [State.reg, Vector.getElem_set, Fin.ext_iff]

theorem reg_setSp (v : Int) (s : State) (j : Fin 8) :
    (s.setSp v).reg j = if 7 = j then byteOf v else s.reg j :=
  reg_setRegs_set s 7 j (byteOf v)

@[simp] theorem sp_setSp (v : Int) (s : State) : (s.setSp v).sp = byteOf v := by
  rw [State.sp_eq_reg, reg_setSp, if_pos rfl]

theorem stackTop_lt (s : State) : stackTop s < 256 := s.sp.isLt

@[simp] theorem readMem_stackTop (s t : State) : readMem (stackTop s) t = .ok (t.mem.read (stackTop s)) := by
  have := stackTop_lt s
  rw [readMem, if_pos (by omega)]

@[simp] theorem writeMem_stackTop (s t : State) (v : Byte) :
    writeMem (stackTop s) v t = .ok (t.setMem (t.mem.write (stackTop s) v)) := by
  have := stackTop_lt s
  rw [writeMem, if_pos (by omega)]

/-- The new stack pointer of PUSH and CALL (spec/43_stack.md R133). -/
theorem sp_decSp (s : State) : (decSp s).sp.toNat = (s.sp.toNat + 255) % 256 := by
  have := s.sp.isLt
  rw [decSp, sp_setSp, toNat_byteOf]
  omega

theorem reg_decSp {j : Fin 8} (h : j ≠ 7) (s : State) : (decSp s).reg j = s.reg j := by
  rw [decSp, reg_setSp, if_neg h.symm]

/-- The new stack pointer of POP: no increment at the top boundary (R134). -/
theorem sp_incSp (s : State) : (incSp s).sp.toNat = if s.sp.toNat = 255 then 255 else s.sp.toNat + 1 := by
  have := s.sp.isLt
  unfold incSp
  by_cases h : s.sp = spTop
  · simp [h, spTop]
  · have h' : s.sp.toNat ≠ 255 := fun e => h (BitVec.eq_of_toNat_eq e)
    rw [if_neg h, sp_setSp, toNat_byteOf, if_neg h']
    omega

theorem reg_incSp {j : Fin 8} (h : j ≠ 7) (s : State) : (incSp s).reg j = s.reg j := by
  unfold incSp
  split
  · rfl
  · rw [reg_setSp, if_neg h.symm]

/-- POP's increment does not look at FL. -/
theorem incSp_setFl (v : Byte) (s : State) : incSp (s.setFl v) = (incSp s).setFl v := by
  unfold incSp
  by_cases h : s.sp = spTop
  · rw [if_pos h, if_pos (show (s.setFl v).sp = spTop from h)]
  · rw [if_neg h, if_neg (show (s.setFl v).sp ≠ spTop from h)]
    rfl

/-- A handler's end is always a next state. -/
theorem commit_next (s : State) (r : Except Cause State) : ∃ t, commit s r = .next t := by
  cases r <;> exact ⟨_, rfl⟩

@[simp] theorem commit_ok (s t : State) : commit s (.ok t) = .next t := rfl

@[simp] theorem commit_error (s : State) (c : Cause) : commit s (.error c) = .next (takeFault c s) := rfl

/-- CMP writes one of the three patterns. -/
theorem compareFlags_legal (fp : FlagPatterns) (a b : Byte) : fp.Legal (compareFlags fp a b) := by
  unfold compareFlags
  split
  · exact .inr (.inr (.inl rfl))
  · split
    · exact .inr (.inl rfl)
    · exact .inr (.inr (.inr rfl))

end Sys2Proof.Machine
end

