-- ==== Sys2Proof/Laws/Handlers.lean ====
section
/-! SUPPORT. What each handler computes: its result for operands that name registers, its fault for an operand that does not. Later
proofs cite these instead of unfolding a handler. -/

namespace Sys2Proof.Machine

@[simp] theorem except_ok_bind {α β : Type} (a : α) (f : α → Except Cause β) : (Except.ok a >>= f) = f a := rfl

@[simp] theorem except_error_bind {α β : Type} (c : Cause) (f : α → Except Cause β) :
    ((Except.error c : Except Cause α) >>= f) = .error c := rfl

theorem ldiHandler_valid (i : Fin 8) (v : Byte) (s : State) :
    ldiHandler (BitVec.ofNat 8 i.val) v s = .ok ((s.setRegs (s.regs.set i.val v)).advance 3) := by
  simp [ldiHandler]

theorem ldiHandler_invalid {r : Byte} (h : 8 ≤ r.toNat) (v : Byte) (s : State) :
    ldiHandler r v s = .error (.invalidRegister r) := by
  simp [ldiHandler, writeReg_invalid h]

theorem prnHandler_valid (i : Fin 8) (s : State) :
    prnHandler (BitVec.ofNat 8 i.val) s = .ok ((s.emit (s.reg i)).advance 2) := by
  simp [prnHandler]

theorem prnHandler_invalid {r : Byte} (h : 8 ≤ r.toNat) (s : State) :
    prnHandler r s = .error (.invalidRegister r) := by
  simp [prnHandler, readReg_invalid h]

theorem aluHandler_add (fp : FlagPatterns) (i j : Fin 8) (s : State) :
    aluHandler fp .add (BitVec.ofNat 8 i.val) (BitVec.ofNat 8 j.val) s =
      .ok ((s.setRegs (s.regs.set i.val (byteOf (((s.reg i).toNat : Int) + (s.reg j).toNat)))).advance 3) := by
  simp [aluHandler, alu, storeAluResult]

theorem aluHandler_mul (fp : FlagPatterns) (i j : Fin 8) (s : State) :
    aluHandler fp .mul (BitVec.ofNat 8 i.val) (BitVec.ofNat 8 j.val) s =
      .ok ((s.setRegs (s.regs.set i.val (byteOf (((s.reg i).toNat : Int) * (s.reg j).toNat)))).advance 3) := by
  simp [aluHandler, alu, storeAluResult]

theorem aluHandler_cmp (fp : FlagPatterns) (i j : Fin 8) (s : State) :
    aluHandler fp .cmp (BitVec.ofNat 8 i.val) (BitVec.ofNat 8 j.val) s =
      .ok ((s.setFl (compareFlags fp (s.reg i) (s.reg j))).advance 3) := by
  simp [aluHandler, alu, storeAluResult]

/-- A bad regA is reported first (spec/60_exceptions.md R168). -/
theorem aluHandler_invalid_left (fp : FlagPatterns) (op : AluOp) {r : Byte} (h : 8 ≤ r.toNat) (r' : Byte) (s : State) :
    aluHandler fp op r r' s = .error (.invalidRegister r) := by
  simp [aluHandler, readReg_invalid h]

theorem aluHandler_invalid_right (fp : FlagPatterns) (op : AluOp) (i : Fin 8) {r : Byte} (h : 8 ≤ r.toNat) (s : State) :
    aluHandler fp op (BitVec.ofNat 8 i.val) r s = .error (.invalidRegister r) := by
  simp [aluHandler, readReg_invalid h]

theorem pushHandler_valid (i : Fin 8) (s : State) :
    pushHandler (BitVec.ofNat 8 i.val) s =
      .ok (((decSp s).setMem (s.mem.write (stackTop (decSp s)) ((decSp s).reg i))).advance 2) := by
  simp [pushHandler]

theorem pushHandler_invalid {r : Byte} (h : 8 ≤ r.toNat) (s : State) :
    pushHandler r s = .error (.invalidRegister r) := by
  simp [pushHandler, readReg_invalid h]

theorem popHandler_valid (i : Fin 8) (s : State) :
    popHandler (BitVec.ofNat 8 i.val) s =
      .ok ((incSp (s.setRegs (s.regs.set i.val (s.mem.read (stackTop s))))).advance 2) := by
  simp [popHandler]

theorem popHandler_invalid {r : Byte} (h : 8 ≤ r.toNat) (s : State) :
    popHandler r s = .error (.invalidRegister r) := by
  simp [popHandler, writeReg_invalid h]

theorem callHandler_valid (i : Fin 8) (s : State) :
    callHandler (BitVec.ofNat 8 i.val) s =
      .ok (((decSp s).setMem (s.mem.write (stackTop (decSp s)) (byteOf ((s.pc : Int) + 2)))).setPc
        ((decSp s).reg i).toNat) := by
  simp [callHandler]

theorem callHandler_invalid {r : Byte} (h : 8 ≤ r.toNat) (s : State) :
    callHandler r s = .error (.invalidRegister r) := by
  simp [callHandler, readReg_invalid h]

theorem retHandler_eq (s : State) : retHandler s = .ok (s.setPc (s.mem.read (stackTop s)).toNat) := by
  simp [retHandler]

theorem jmpHandler_valid (i : Fin 8) (s : State) :
    jmpHandler (BitVec.ofNat 8 i.val) s = .ok (s.setPc (s.reg i).toNat) := by
  simp [jmpHandler]

theorem jmpHandler_invalid {r : Byte} (h : 8 ≤ r.toNat) (s : State) :
    jmpHandler r s = .error (.invalidRegister r) := by
  simp [jmpHandler, readReg_invalid h]

theorem jeqHandler_taken {fp : FlagPatterns} {s : State} (h : s.fl = fp.equal) (r : Byte) :
    jeqHandler fp r s = jmpHandler r s := by
  simp [jeqHandler, State.isEqual, h]

theorem jeqHandler_not_taken {fp : FlagPatterns} {s : State} (h : s.fl ≠ fp.equal) (r : Byte) :
    jeqHandler fp r s = .ok (s.advance 2) := by
  simp [jeqHandler, State.isEqual, h]

end Sys2Proof.Machine
end

