-- ==== Sys2Proof/Laws/Effects.lean ====
section
/-! SUPPORT. The two inversion lemmas over all handlers: what one that completes can do, what one can raise. -/

namespace Sys2Proof.Machine

/-- Everything a handler that does not raise can do to MEM's form, CAUSE, RUN, FL and PC. -/
theorem handlerWith_ok_effect {fp : FlagPatterns} {i : Instr} {s t : State} (h : handlerWith fp i s = .ok t) :
    (s.mem.wf = true → t.mem.wf = true) ∧ t.cause = s.cause ∧ (t.run = if i = .hlt then .halted else s.run) ∧
    (t.fl = s.fl ∨ ∃ a b r r', i = .cmp r r' ∧ t.fl = compareFlags fp a b) ∧
    (t.pc ≤ 255 ∨ t.pc = s.pc ∨ t.pc = s.pc + 2 ∨ (t.pc = s.pc + 3 ∧ i.mnemonic.length = 3)) := by
  have hb : ∀ b : Byte, b.toNat ≤ 255 := fun b => by have := b.isLt; omega
  cases i with
  | hlt => cases h; simp
  | ldi r v =>
    rcases operand_cases r with ⟨i, rfl⟩ | hr
    · rw [handlerWith, ldiHandler_valid] at h; cases h; simp [Instr.mnemonic, Mnemonic.length]
    · rw [handlerWith, ldiHandler_invalid hr] at h; cases h
  | prn r =>
    rcases operand_cases r with ⟨i, rfl⟩ | hr
    · rw [handlerWith, prnHandler_valid] at h; cases h; simp
    · rw [handlerWith, prnHandler_invalid hr] at h; cases h
  | add r r' =>
    rcases operand_cases r with ⟨i, rfl⟩ | hr
    · rcases operand_cases r' with ⟨j, rfl⟩ | hr'
      · rw [handlerWith, aluHandler_add] at h; cases h; simp [Instr.mnemonic, Mnemonic.length]
      · rw [handlerWith, aluHandler_invalid_right _ _ _ hr'] at h; cases h
    · rw [handlerWith, aluHandler_invalid_left _ _ hr] at h; cases h
  | mul r r' =>
    rcases operand_cases r with ⟨i, rfl⟩ | hr
    · rcases operand_cases r' with ⟨j, rfl⟩ | hr'
      · rw [handlerWith, aluHandler_mul] at h; cases h; simp [Instr.mnemonic, Mnemonic.length]
      · rw [handlerWith, aluHandler_invalid_right _ _ _ hr'] at h; cases h
    · rw [handlerWith, aluHandler_invalid_left _ _ hr] at h; cases h
  | cmp r r' =>
    rcases operand_cases r with ⟨i, rfl⟩ | hr
    · rcases operand_cases r' with ⟨j, rfl⟩ | hr'
      · rw [handlerWith, aluHandler_cmp] at h; cases h; simp [Instr.mnemonic, Mnemonic.length]
      · rw [handlerWith, aluHandler_invalid_right _ _ _ hr'] at h; cases h
    · rw [handlerWith, aluHandler_invalid_left _ _ hr] at h; cases h
  | push r =>
    rcases operand_cases r with ⟨i, rfl⟩ | hr
    · rw [handlerWith, pushHandler_valid] at h; cases h; simp
      exact fun hm => Memory.wf_write _ hm (stackTop_lt _)
    · rw [handlerWith, pushHandler_invalid hr] at h; cases h
  | pop r =>
    rcases operand_cases r with ⟨i, rfl⟩ | hr
    · rw [handlerWith, popHandler_valid] at h; cases h; simp
    · rw [handlerWith, popHandler_invalid hr] at h; cases h
  | call r =>
    rcases operand_cases r with ⟨i, rfl⟩ | hr
    · rw [handlerWith, callHandler_valid] at h; cases h; simp [hb]
      exact fun hm => Memory.wf_write _ hm (stackTop_lt _)
    · rw [handlerWith, callHandler_invalid hr] at h; cases h
  | ret => rw [handlerWith, retHandler_eq] at h; cases h; simp [hb]
  | jmp r =>
    rcases operand_cases r with ⟨i, rfl⟩ | hr
    · rw [handlerWith, jmpHandler_valid] at h; cases h; simp [hb]
    · rw [handlerWith, jmpHandler_invalid hr] at h; cases h
  | jeq r =>
    by_cases he : s.fl = fp.equal
    · rcases operand_cases r with ⟨i, rfl⟩ | hr
      · rw [handlerWith, jeqHandler_taken he, jmpHandler_valid] at h; cases h; simp [hb]
      · rw [handlerWith, jeqHandler_taken he, jmpHandler_invalid hr] at h; cases h
    · rw [handlerWith, jeqHandler_not_taken he] at h; cases h; simp

/-- The only fault a handler raises is InvalidRegister: no data access is out of range (spec/20_memory.md R54). -/
theorem handlerWith_error_invalid {fp : FlagPatterns} {i : Instr} {s : State} {c : Cause} (h : handlerWith fp i s = .error c) :
    ∃ r, c = .invalidRegister r := by
  cases i with
  | hlt => cases h
  | ldi r v =>
    rcases operand_cases r with ⟨i, rfl⟩ | hr
    · rw [handlerWith, ldiHandler_valid] at h; cases h
    · rw [handlerWith, ldiHandler_invalid hr] at h; cases h; exact ⟨_, rfl⟩
  | prn r =>
    rcases operand_cases r with ⟨i, rfl⟩ | hr
    · rw [handlerWith, prnHandler_valid] at h; cases h
    · rw [handlerWith, prnHandler_invalid hr] at h; cases h; exact ⟨_, rfl⟩
  | add r r' =>
    rcases operand_cases r with ⟨i, rfl⟩ | hr
    · rcases operand_cases r' with ⟨j, rfl⟩ | hr'
      · rw [handlerWith, aluHandler_add] at h; cases h
      · rw [handlerWith, aluHandler_invalid_right _ _ _ hr'] at h; cases h; exact ⟨_, rfl⟩
    · rw [handlerWith, aluHandler_invalid_left _ _ hr] at h; cases h; exact ⟨_, rfl⟩
  | mul r r' =>
    rcases operand_cases r with ⟨i, rfl⟩ | hr
    · rcases operand_cases r' with ⟨j, rfl⟩ | hr'
      · rw [handlerWith, aluHandler_mul] at h; cases h
      · rw [handlerWith, aluHandler_invalid_right _ _ _ hr'] at h; cases h; exact ⟨_, rfl⟩
    · rw [handlerWith, aluHandler_invalid_left _ _ hr] at h; cases h; exact ⟨_, rfl⟩
  | cmp r r' =>
    rcases operand_cases r with ⟨i, rfl⟩ | hr
    · rcases operand_cases r' with ⟨j, rfl⟩ | hr'
      · rw [handlerWith, aluHandler_cmp] at h; cases h
      · rw [handlerWith, aluHandler_invalid_right _ _ _ hr'] at h; cases h; exact ⟨_, rfl⟩
    · rw [handlerWith, aluHandler_invalid_left _ _ hr] at h; cases h; exact ⟨_, rfl⟩
  | push r =>
    rcases operand_cases r with ⟨i, rfl⟩ | hr
    · rw [handlerWith, pushHandler_valid] at h; cases h
    · rw [handlerWith, pushHandler_invalid hr] at h; cases h; exact ⟨_, rfl⟩
  | pop r =>
    rcases operand_cases r with ⟨i, rfl⟩ | hr
    · rw [handlerWith, popHandler_valid] at h; cases h
    · rw [handlerWith, popHandler_invalid hr] at h; cases h; exact ⟨_, rfl⟩
  | call r =>
    rcases operand_cases r with ⟨i, rfl⟩ | hr
    · rw [handlerWith, callHandler_valid] at h; cases h
    · rw [handlerWith, callHandler_invalid hr] at h; cases h; exact ⟨_, rfl⟩
  | ret => rw [handlerWith, retHandler_eq] at h; cases h
  | jmp r =>
    rcases operand_cases r with ⟨i, rfl⟩ | hr
    · rw [handlerWith, jmpHandler_valid] at h; cases h
    · rw [handlerWith, jmpHandler_invalid hr] at h; cases h; exact ⟨_, rfl⟩
  | jeq r =>
    by_cases he : s.fl = fp.equal
    · rcases operand_cases r with ⟨i, rfl⟩ | hr
      · rw [handlerWith, jeqHandler_taken he, jmpHandler_valid] at h; cases h
      · rw [handlerWith, jeqHandler_taken he, jmpHandler_invalid hr] at h; cases h; exact ⟨_, rfl⟩
    · rw [handlerWith, jeqHandler_not_taken he] at h; cases h

end Sys2Proof.Machine
end

