-- ==== Sys2Proof/Laws/PerInstr.lean ====
section
/-! SUPPORT. Statements about each instruction as syntax, one lemma per constructor. -/

namespace Sys2Proof.Laws.EncodedLength

/-- Under any opcode bytes the encoding has the length the opcode map gives (spec/30_encoding.md R60, R63). -/
def Statement (i : Instr) : Prop := ∀ opc : OpcodeMap, (encodeWith opc i).length = i.mnemonic.length

theorem hlt : Statement .hlt := fun _ => rfl
theorem ldi (reg value : Byte) : Statement (.ldi reg value) := fun _ => rfl
theorem prn (reg : Byte) : Statement (.prn reg) := fun _ => rfl
theorem add (regA regB : Byte) : Statement (.add regA regB) := fun _ => rfl
theorem mul (regA regB : Byte) : Statement (.mul regA regB) := fun _ => rfl
theorem cmp (regA regB : Byte) : Statement (.cmp regA regB) := fun _ => rfl
theorem push (reg : Byte) : Statement (.push reg) := fun _ => rfl
theorem pop (reg : Byte) : Statement (.pop reg) := fun _ => rfl
theorem call (reg : Byte) : Statement (.call reg) := fun _ => rfl
theorem ret : Statement .ret := fun _ => rfl
theorem jmp (reg : Byte) : Statement (.jmp reg) := fun _ => rfl
theorem jeq (reg : Byte) : Statement (.jeq reg) := fun _ => rfl

end Sys2Proof.Laws.EncodedLength
end

