-- ==== Sys2Proof/Laws/Step.lean ====
section
/-! SUPPORT. What a step can do: the fetch, the four ways a step ends, and the link between `step` and its parametric form. -/

namespace Sys2Proof.Machine

theorem readMem_eq (a : Nat) (s : State) :
    readMem a s = if a ≤ 255 then .ok (s.mem.read a) else .error (.outOfRange a) := rfl

theorem fetch_ok {s : State} (h : s.pc ≤ 253) :
    fetch s = .ok ⟨s.mem.read s.pc, s.mem.read (s.pc + 1), s.mem.read (s.pc + 2)⟩ := by
  have h0 : s.pc ≤ 255 := by omega
  have h1 : s.pc + 1 ≤ 255 := by omega
  have h2 : s.pc + 2 ≤ 255 := by omega
  simp [fetch, readMem_eq, h0, h1, h2]

/-- The first read past 255 ends the step (spec/40_fetch_dispatch.md R82). -/
theorem fetch_error {s : State} (h : 254 ≤ s.pc) : fetch s = .error (.outOfRange (max s.pc 256)) := by
  rcases Nat.lt_or_ge 255 s.pc with h' | h'
  · have hm : max s.pc 256 = s.pc := by omega
    simp [fetch, readMem_eq, Nat.not_le.2 h', hm]
  · rcases (by omega : s.pc = 254 ∨ s.pc = 255) with e | e <;> simp [fetch, readMem_eq, e]

theorem fetch_ok_inv {s : State} {f : Fetched} (h : fetch s = .ok f) :
    s.pc ≤ 253 ∧ f = ⟨s.mem.read s.pc, s.mem.read (s.pc + 1), s.mem.read (s.pc + 2)⟩ := by
  rcases Nat.lt_or_ge 253 s.pc with h' | h'
  · rw [fetch_error (by omega)] at h
    cases h
  · rw [fetch_ok h'] at h
    cases h
    exact ⟨h', rfl⟩

theorem exec_eq_execWith (i : Instr) (s : State) : exec i s = execWith flagPatterns i s := by
  cases i <;> rfl

/-- `step` is the parametric step at the default opcode bytes and flag patterns. -/
theorem step_eq_stepWith (s : State) : step s = stepWith defaultOpc flagPatterns s := by
  unfold step stepWith
  congr 1
  funext i t
  exact exec_eq_execWith i t

theorem execWith_next (fp : FlagPatterns) (i : Instr) (s : State) : ∃ t, execWith fp i s = .next t :=
  commit_next s _

theorem execWith_cases {fp : FlagPatterns} {i : Instr} {s t : State} (h : execWith fp i s = .next t) :
    handlerWith fp i s = .ok t ∨ ∃ c, handlerWith fp i s = .error c ∧ t = takeFault c s := by
  unfold execWith at h
  cases hh : handlerWith fp i s with
  | ok u => rw [hh] at h; cases h; exact .inl rfl
  | error c => rw [hh] at h; cases h; exact .inr ⟨c, rfl, rfl⟩

theorem stepWith_halted {opc : OpcodeMap} {fp : FlagPatterns} {s : State} (h : s.run = .halted) :
    stepWith opc fp s = .fault .coreHalted := by
  simp [stepWith, stepBy, h]

theorem stepWith_faulted {opc : OpcodeMap} {fp : FlagPatterns} {s : State} (h : s.run = .faulted) :
    stepWith opc fp s = .fault .coreFaulted := by
  simp [stepWith, stepBy, h]

theorem stepWith_fetch_error {opc : OpcodeMap} {fp : FlagPatterns} {s : State} {c : Cause}
    (h : s.run = .running) (hf : fetch s = .error c) : stepWith opc fp s = .next (takeFault c s) := by
  simp [stepWith, stepBy, h, hf]

theorem stepWith_unknown {opc : OpcodeMap} {fp : FlagPatterns} {s : State} {f : Fetched} {e : DecodeError}
    (h : s.run = .running) (hf : fetch s = .ok f) (hd : decodeWith opc f.ir f.opa f.opb = .error e) :
    stepWith opc fp s = .next (takeFault (decodeCause e) s) := by
  simp [stepWith, stepBy, h, hf, hd]

theorem stepWith_exec {opc : OpcodeMap} {fp : FlagPatterns} {s : State} {f : Fetched} {i : Instr}
    (h : s.run = .running) (hf : fetch s = .ok f) (hd : decodeWith opc f.ir f.opa f.opb = .ok i) :
    stepWith opc fp s = execWith fp i s := by
  simp [stepWith, stepBy, h, hf, hd]

/-- The ways a step that answers a next state can have gone: a fetch fault, an unknown opcode, or one handler. -/
theorem stepWith_next_cases {opc : OpcodeMap} {fp : FlagPatterns} {s t : State} (h : stepWith opc fp s = .next t) :
    s.run = .running ∧
      ((∃ c, fetch s = .error c ∧ t = takeFault c s) ∨
       (∃ f e, fetch s = .ok f ∧ decodeWith opc f.ir f.opa f.opb = .error e ∧ t = takeFault (decodeCause e) s) ∨
       (∃ f i, fetch s = .ok f ∧ decodeWith opc f.ir f.opa f.opb = .ok i ∧ execWith fp i s = .next t)) := by
  cases hr : s.run with
  | halted => rw [stepWith_halted hr] at h; cases h
  | faulted => rw [stepWith_faulted hr] at h; cases h
  | running =>
    refine ⟨rfl, ?_⟩
    cases hf : fetch s with
    | error c => rw [stepWith_fetch_error hr hf] at h; cases h; exact .inl ⟨c, rfl, rfl⟩
    | ok f =>
      cases hd : decodeWith opc f.ir f.opa f.opb with
      | error e => rw [stepWith_unknown hr hf hd] at h; cases h; exact .inr (.inl ⟨f, e, rfl, hd, rfl⟩)
      | ok i => rw [stepWith_exec hr hf hd] at h; exact .inr (.inr ⟨f, i, rfl, hd, h⟩)

/-- The three bytes placed at PC are what the next fetch reads. -/
theorem fetch_placeAtPc {s : State} (b0 b1 b2 : Byte) (hm : s.mem.wf = true) (hp : s.pc ≤ 253) :
    fetch (placeAtPc b0 b1 b2 s) = .ok ⟨b0, b1, b2⟩ := by
  have w0 := Memory.wf_write b0 hm (show s.pc < 256 by omega)
  have w1 := Memory.wf_write b1 w0 (show s.pc + 1 < 256 by omega)
  rw [fetch_ok (show (placeAtPc b0 b1 b2 s).pc ≤ 253 from hp)]
  simp only [placeAtPc, State.setMem_pc, State.setMem_mem, Memory.read_write_same b2 w1]
  rw [Memory.read_write_other _ _ (by omega), Memory.read_write_other _ _ (by omega), Memory.read_write_same b0 hm,
    Memory.read_write_other _ _ (by omega), Memory.read_write_same b1 w0]

/-- A table row's bits placed by `withFetchWord` are decoded and run by the very next step. -/
theorem step_withFetchWord {s : State} {nbits w : Nat} {i : Instr} (hr : s.run = .running) (hm : s.mem.wf = true)
    (hp : s.pc ≤ 253) (hd : decodeTableWord nbits w = some i) :
    step (s.withFetchWord nbits w) = exec i (s.withFetchWord nbits w) := by
  have hf := fetch_placeAtPc (tableByte nbits w 0) (tableByte nbits w 1) (tableByte nbits w 2) hm hp
  have hd' : decodeWith defaultOpc (tableByte nbits w 0) (tableByte nbits w 1) (tableByte nbits w 2) = .ok i := by
    unfold decodeTableWord decode at hd
    split at hd
    · rename_i j e; cases hd; exact e
    · cases hd
  rw [step_eq_stepWith, exec_eq_execWith]
  exact stepWith_exec hr hf hd'

end Sys2Proof.Machine
end

