-- ==== Sys2Proof/Tests/Slice0.lean ====
section
/-! SUPPORT. The model's own tests: the well-formedness smoke, decoding from words written out from the spec's encoding tables, one step per
case with the expected values of spec/95_test_vectors.md (each test names its vector), and a witness for the hypotheses of every statement
that has some. -/

namespace Sys2Proof.Tests

open Sys2Proof.Machine

/-! ### WellFormed refuses each ill-formed operand -/

theorem test_illformed_one_register :
    (Instr.ldi 8#8 0#8).wellFormed = false ∧ (Instr.prn 8#8).wellFormed = false ∧
    (Instr.push 0xFF#8).wellFormed = false ∧ (Instr.pop 8#8).wellFormed = false ∧ (Instr.call 0x0F#8).wellFormed = false ∧
    (Instr.jmp 8#8).wellFormed = false ∧ (Instr.jeq 8#8).wellFormed = false := by decide

theorem test_illformed_two_registers :
    (Instr.add 8#8 0#8).wellFormed = false ∧ (Instr.add 0#8 8#8).wellFormed = false ∧
    (Instr.mul 8#8 0#8).wellFormed = false ∧ (Instr.mul 0#8 8#8).wellFormed = false ∧
    (Instr.cmp 8#8 0#8).wellFormed = false ∧ (Instr.cmp 0#8 8#8).wellFormed = false := by decide

theorem test_wellformed_top_register :
    (Instr.ldi 7#8 0xFF#8).wellFormed = true ∧ (Instr.add 7#8 7#8).wellFormed = true ∧ Instr.hlt.wellFormed = true := by
  decide

/-! ### Decoding: words written out from the tables of spec/30_encoding.md (R61, R63) -/

/-- Reads the decoder's answer as an option, so that two answers can be compared. -/
def decoded (ir opa opb : Byte) : Option Instr := decodeTableWord 24 (ir.toNat + 256 * opa.toNat + 65536 * opb.toNat)

theorem test_decode_format_z :
    decoded 0b00000001#8 0xFF#8 0xFF#8 = some .hlt ∧ decoded 0b00010001#8 0xFF#8 0xFF#8 = some .ret := by decide

theorem test_decode_format_r :
    decoded 0b01000111#8 5#8 0xFF#8 = some (.prn 5#8) ∧ decoded 0b01000101#8 1#8 0#8 = some (.push 1#8) ∧
    decoded 0b01000110#8 2#8 0#8 = some (.pop 2#8) ∧ decoded 0b01010000#8 3#8 0#8 = some (.call 3#8) ∧
    decoded 0b01010100#8 4#8 0#8 = some (.jmp 4#8) ∧ decoded 0b01010101#8 6#8 0#8 = some (.jeq 6#8) := by decide

theorem test_decode_format_rr :
    decoded 0b10100000#8 0#8 1#8 = some (.add 0#8 1#8) ∧ decoded 0b10100010#8 2#8 3#8 = some (.mul 2#8 3#8) ∧
    decoded 0b10100111#8 4#8 5#8 = some (.cmp 4#8 5#8) := by decide

theorem test_decode_format_ri : decoded 0b10000010#8 0#8 0x48#8 = some (.ldi 0#8 0x48#8) := by decide

/-- V-DEC-1, V-DEC-2, V-DEC-3, V-DEC-6: no neighbour of an opcode is one. -/
theorem test_decode_unknown :
    decoded 0x00#8 0#8 0#8 = none ∧ decoded 0xFF#8 0#8 0#8 = none ∧ decoded 0x56#8 0#8 0#8 = none ∧
    decoded 0x81#8 0#8 0#8 = none := by decide

/-- R69: a bad register byte is decoded. -/
theorem test_decode_bad_register : decoded 0xA0#8 9#8 10#8 = some (.add 9#8 10#8) := by decide

/-- A row given with fewer bits has operand bytes of zero. -/
theorem test_decode_short_row : decodeTableWord 8 0x82 = some (.ldi 0#8 0#8) := by decide

theorem test_encode : encode (.mul 0#8 1#8) = [0xA2#8, 0x00#8, 0x01#8] ∧ encode .ret = [0x11#8] := by decide

/-! ### One step -/

/-- The reset state with PC = `pc`, the bytes `code` there, and some registers set. -/
def at_ (pc : Nat) (code : List Byte) (regs : List (Fin 8 × Byte)) (fl : Byte := 0#8) : State :=
  let s := loadFrom pc code { State.reset with pc := pc, fl := fl }
  regs.foldl (fun t r => t.setRegs (t.regs.set r.1.val r.2)) s

/-- The state a step leads to. -/
def after (o : Host.Outcome State Fault Refusal) : Option State :=
  match o with
  | .next t => some t
  | _ => none

/-- What a step leaves in one register, PC, FL, RUN. -/
def view (i : Fin 8) (s : State) : Option (Byte × Nat × Byte × RunState) :=
  (after (step s)).map (fun t => (t.reg i, t.pc, t.fl, t.run))

/-- What a step leaves in SP, one cell, PC. -/
def stack (a : Nat) (s : State) : Option (Byte × Byte × Nat) :=
  (after (step s)).map (fun t => (t.sp, t.mem.read a, t.pc))

/-- The cause a step latches. -/
def causeOf (s : State) : Option Cause := (after (step s)).bind State.cause

/-- V-HLT-1. -/
theorem test_hlt : view 7 (at_ 0 [0x01#8] []) = some (0xF3#8, 0, 0#8, .halted) := by decide

/-- V-HLT-3, V-FETCH-1: a HLT at 254 faults. -/
theorem test_hlt_at_254 : causeOf (at_ 254 [0x01#8] []) = some (.outOfRange 256) ∧
    causeOf (at_ 256 [] []) = some (.outOfRange 256) := by decide

/-- V-STOP-1. -/
theorem test_no_step_when_stopped :
    after (step (State.reset.setRun .halted)) = none ∧ after (step (takeFault .programFileMissing State.reset)) = none := by
  decide

/-- V-DEC-4, V-DEC-5. -/
theorem test_fault_priority : causeOf (at_ 254 [0x00#8] []) = some (.outOfRange 256) ∧
    causeOf (at_ 0 [0x02#8, 9#8, 9#8] []) = some (.unknownInstruction 0x02#8) := by decide

/-- V-LDI-2, V-LDI-4. -/
theorem test_ldi : view 7 (at_ 0 [0x82#8, 7#8, 0x10#8] []) = some (0x10#8, 3, 0#8, .running) ∧
    view 0 (at_ 253 [0x82#8, 0#8, 0xAA#8] []) = some (0xAA#8, 256, 0#8, .running) := by decide

/-- V-LDI-3: the fault changes nothing else. -/
theorem test_ldi_bad_register :
    after (step (at_ 0 [0x82#8, 8#8, 5#8] [])) = some (takeFault (.invalidRegister 8#8) (at_ 0 [0x82#8, 8#8, 5#8] [])) := by
  decide

/-- V-PRN-2, V-PRN-4. -/
theorem test_prn : ((after (step (at_ 0 [0x47#8, 5#8] [(5, 0xFF#8)]))).map State.outlog) = some [0xFF#8] ∧
    ((after (step (at_ 0 [0x47#8, 9#8] []))).map State.outlog) = some [] := by decide

/-- V-ADD-1, V-ADD-3. -/
theorem test_add : view 0 (at_ 6 [0xA0#8, 0#8, 1#8] [(0, 0xFF#8), (1, 2#8)] 2#8) = some (1#8, 9, 2#8, .running) ∧
    view 2 (at_ 0 [0xA0#8, 2#8, 2#8] [(2, 0x80#8)]) = some (0#8, 3, 0#8, .running) := by decide

/-- V-ADD-6, V-ADD-7: regA is reported first. -/
theorem test_add_bad_register : causeOf (at_ 0 [0xA0#8, 9#8, 10#8] []) = some (.invalidRegister 9#8) ∧
    causeOf (at_ 0 [0xA0#8, 0#8, 8#8] []) = some (.invalidRegister 8#8) := by decide

/-- V-MUL-3, V-MUL-5. -/
theorem test_mul : view 0 (at_ 0 [0xA2#8, 0#8, 1#8] [(0, 0xFF#8), (1, 0xFF#8)]) = some (1#8, 3, 0#8, .running) ∧
    view 3 (at_ 0 [0xA2#8, 3#8, 3#8] [(3, 0x0D#8)]) = some (0xA9#8, 3, 0#8, .running) := by decide

/-- V-CMP-4, V-CMP-7: unsigned, and FL overwritten. -/
theorem test_cmp : view 0 (at_ 0 [0xA7#8, 0#8, 1#8] [(0, 0xFF#8), (1, 1#8)]) = some (0xFF#8, 3, 2#8, .running) ∧
    view 0 (at_ 0 [0xA7#8, 0#8, 1#8] [(0, 9#8), (1, 2#8)] 4#8) = some (9#8, 3, 2#8, .running) := by decide

/-- V-CMP-1, V-CMP-3. -/
theorem test_cmp_equal_and_less :
    view 0 (at_ 0x12 [0xA7#8, 0#8, 2#8] [(0, 3#8), (2, 3#8)] 4#8) = some (3#8, 0x15, 1#8, .running) ∧
    view 0 (at_ 0 [0xA7#8, 0#8, 1#8] [(0, 3#8), (1, 5#8)]) = some (3#8, 3, 4#8, .running) := by decide

/-- V-PUSH-2, V-PUSH-3: the wrap, and PUSH R7. -/
theorem test_push : stack 0xFF (at_ 0 [0x45#8, 1#8] [(7, 0#8), (1, 0xAB#8)]) = some (0xFF#8, 0xAB#8, 2) ∧
    stack 0xF2 (at_ 0 [0x45#8, 7#8] []) = some (0xF2#8, 0xF2#8, 2) := by decide

/-- V-PUSH-4: the decrement is discarded. -/
theorem test_push_bad_register :
    after (step (at_ 0 [0x45#8, 9#8] [])) = some (takeFault (.invalidRegister 9#8) (at_ 0 [0x45#8, 9#8] [])) := by decide

/-- V-POP-2 with the cell at 0xFF loaded as 0x77, V-POP-4, V-POP-5. -/
theorem test_pop :
    view 0 ((at_ 0 [0x46#8, 0#8] [(7, 0xFF#8)]).setMem [(0, 0x46#8), (0xFF, 0x77#8)]) = some (0x77#8, 2, 0#8, .running) ∧
    view 7 ((at_ 0 [0x46#8, 7#8] [(7, 0xF2#8)]).setMem [(0, 0x46#8), (1, 7#8), (0xF2, 0x40#8)]) =
      some (0x41#8, 2, 0#8, .running) := by decide

/-- V-POP-5: POP R7 of 0xFF stays at the boundary. -/
theorem test_pop_boundary :
    stack 0xF2 ((at_ 0 [0x46#8, 7#8] [(7, 0xF2#8)]).setMem [(0, 0x46#8), (1, 7#8), (0xF2, 0xFF#8)]) =
      some (0xFF#8, 0xFF#8, 2) := by decide

/-- V-CALL-1, V-CALL-3. -/
theorem test_call : stack 0xF2 (at_ 3 [0x50#8, 1#8] [(1, 9#8)]) = some (0xF2#8, 5#8, 9) ∧
    stack 0xF2 (at_ 0x10 [0x50#8, 7#8] []) = some (0xF2#8, 0x12#8, 0xF2) := by decide

/-- V-CALL-4: SP and memory are as before. -/
theorem test_call_bad_register :
    after (step (at_ 0 [0x50#8, 8#8] [])) = some (takeFault (.invalidRegister 8#8) (at_ 0 [0x50#8, 8#8] [])) := by decide

/-- V-RET-1: SP stays. -/
theorem test_ret :
    stack 0xF2 ((at_ 0x0C [0x11#8] [(7, 0xF2#8)]).setMem [(0x0C, 0x11#8), (0xF2, 5#8)]) = some (0xF2#8, 5#8, 5) := by decide

/-- V-JMP-1, V-JMP-3. -/
theorem test_jmp : view 3 (at_ 0x17 [0x54#8, 3#8] [(3, 0x0F#8)]) = some (0x0F#8, 0x0F, 0#8, .running) ∧
    causeOf (at_ 0 [0x54#8, 0x0A#8] []) = some (.invalidRegister 0x0A#8) := by decide

/-- V-JEQ-1, V-JEQ-2, V-JEQ-4. -/
theorem test_jeq : view 4 (at_ 0x15 [0x55#8, 4#8] [(4, 0x19#8)] 1#8) = some (0x19#8, 0x19, 1#8, .running) ∧
    view 4 (at_ 0x15 [0x55#8, 4#8] [(4, 0x19#8)] 4#8) = some (0x19#8, 0x17, 4#8, .running) ∧
    view 4 (at_ 0x15 [0x55#8, 4#8] [(4, 0x19#8)]) = some (0x19#8, 0x17, 0#8, .running) := by decide

/-- V-JEQ-5, V-JEQ-6: the operand is checked only when the jump is taken. -/
theorem test_jeq_bad_register : causeOf (at_ 0 [0x55#8, 9#8] [] 1#8) = some (.invalidRegister 9#8) ∧
    view 0 (at_ 0 [0x55#8, 9#8] [] 4#8) = some (0#8, 2, 4#8, .running) := by decide

/-- `withFetchWord` from reset: the very next step runs the row (LDI with operand bytes 0, 8). -/
theorem test_withFetchWord : view 0 (State.reset.withFetchWord 24 0x080082) = some (8#8, 3, 0#8, .running) := by decide

/-- V-LOAD-2, V-RESET-1: SP does not come from the loaded bytes. -/
theorem test_load : (boot [0x82#8, 0#8, 8#8]).mem.read 2 = 8#8 ∧ (boot [0x82#8, 0#8, 8#8]).sp = 0xF3#8 ∧
    hostReset (takeFault .programFileMissing State.reset) = State.reset := by decide

/-- R177: the trace line of a state. -/
theorem test_trace : (traceLine (at_ 3 [0x50#8, 1#8] [])).map TraceLine.bytes = some ⟨0x50#8, 1#8, 0#8⟩ := by decide

/-! ### Witnesses: a concrete state and operands for the hypotheses of each statement that has some -/

theorem witness_DecodeAgreesWithEncode :
    defaultOpc.Distinct ∧ encodeWith defaultOpc (.ldi 7#8 0xFF#8) <+: [0x82#8, 7#8, 0xFF#8] ∧
      encodeWith defaultOpc .ret <+: [0x11#8, 0xFF#8, 0#8] :=
  ⟨defaultOpc_distinct, by decide, by decide⟩

theorem witness_FormatsLayOutTheBytes : ∃ f, fetch (at_ 253 [0x82#8, 0#8, 0xAA#8] []) = .ok f := ⟨_, rfl⟩

theorem witness_IllegalOpcodesAre244 : defaultOpc.Distinct ∧ ∀ m, defaultOpc m ≠ 0x00#8 :=
  ⟨defaultOpc_distinct, fun m => by cases m <;> decide⟩

theorem witness_StepRunsTheDecodedInstruction :
    (at_ 253 [0xA0#8, 9#8, 1#8] []).run = .running ∧ (at_ 253 [0xA0#8, 9#8, 1#8] []).pc ≤ 253 ∧
      decode ((at_ 253 [0xA0#8, 9#8, 1#8] []).mem.read 253) ((at_ 253 [0xA0#8, 9#8, 1#8] []).mem.read 254)
        ((at_ 253 [0xA0#8, 9#8, 1#8] []).mem.read 255) = .ok (.add 9#8 1#8) :=
  ⟨rfl, by decide, rfl⟩

theorem witness_EncodedInstructionAtPcRuns :
    let s := at_ 253 [0xA0#8, 0#8, 1#8] []
    defaultOpc.Distinct ∧ s.run = .running ∧ s.pc ≤ 253 ∧
      ∀ (k : Nat) (b : Byte), (encodeWith defaultOpc (.add 0#8 1#8))[k]? = some b → s.mem.read (s.pc + k) = b := by
  refine ⟨defaultOpc_distinct, rfl, by decide, ?_⟩
  intro k b h
  rcases k with _ | _ | _ | k
  · cases h; rfl
  · cases h; rfl
  · cases h; rfl
  · simp [encodeWith, Instr.operandBytes] at h

theorem witness_HaltTestComesFirst :
    let s := at_ 253 [0x01#8] []
    s.run = .running ∧ s.pc ≤ 253 ∧ s.mem.read s.pc = defaultOpc .hlt := by decide

theorem witness_FetchPastTheTopFaults : ∀ pc ∈ [254, 255, 256],
    (at_ pc [] []).run = .running ∧ 254 ≤ (at_ pc [] []).pc ∧ (at_ pc [] []).pc ≤ 256 := by decide

theorem witness_UnknownOpcodeFaults :
    State.reset.run = .running ∧ State.reset.pc ≤ 253 ∧ ∀ m, defaultOpc m ≠ State.reset.mem.read State.reset.pc :=
  ⟨rfl, by decide, fun m => by cases m <;> decide⟩

/-- A state with PC at the top of the loaded bytes meets the invariant. -/
theorem inv_at_253 : Inv (at_ 253 [0x82#8, 0#8, 0xAA#8] []) := ⟨by decide, by decide, by decide, by decide⟩

theorem inv_at_256 : Inv (at_ 256 [] []) := ⟨by decide, by decide, by decide, by decide⟩

theorem inv_hlt : Inv (at_ 0 [0x01#8] []) := ⟨by decide, by decide, by decide, by decide⟩

theorem witness_StepKeepsInvariant : ∃ t, Inv (at_ 253 [0x82#8, 0#8, 0xAA#8] []) ∧
    step (at_ 253 [0x82#8, 0#8, 0xAA#8] []) = .next t := ⟨_, inv_at_253, rfl⟩

theorem witness_FaultsArePrecise : ∃ t, step (at_ 0 [0x45#8, 9#8] []) = .next t ∧ t.run = .faulted := ⟨_, rfl, rfl⟩

theorem witness_RunStateTransitions : ∃ t u, Inv (at_ 0 [0x01#8] []) ∧ step (at_ 0 [0x01#8] []) = .next t ∧ t.run = .halted ∧
    Inv (at_ 256 [] []) ∧ step (at_ 256 [] []) = .next u ∧ u.run = .faulted :=
  ⟨_, _, inv_hlt, rfl, rfl, inv_at_256, rfl, rfl⟩

theorem witness_OnlyTheFetchIsOutOfRange : ∃ t, Inv (at_ 256 [] []) ∧ step (at_ 256 [] []) = .next t ∧
    t.cause = some (.outOfRange 256) := ⟨_, inv_at_256, rfl, rfl⟩

theorem witness_PcReaches256OnlyFrom253 : ∃ t, Inv (at_ 253 [0x82#8, 0#8, 0xAA#8] []) ∧
    (at_ 253 [0x82#8, 0#8, 0xAA#8] []).pc ≤ 255 ∧ step (at_ 253 [0x82#8, 0#8, 0xAA#8] []) = .next t ∧ t.pc = 256 :=
  ⟨_, inv_at_253, by decide, rfl, rfl⟩

theorem witness_OutputIsThePrintedValuesInOrder : ∃ t, StepsTo 2 (at_ 0 [0x47#8, 7#8, 0x47#8, 9#8] []) t ∧
    t.run = .faulted ∧ t.outlog = [0xF3#8] := ⟨_, ⟨_, rfl, _, rfl, rfl⟩, rfl, rfl⟩

theorem witness_MemoryAccessPrimitives : State.reset.mem.wf = true ∧ (255 : Nat) ≤ 255 ∧ (255 : Nat) < 256 := by decide

theorem witness_RegisterAccessPrimitives : (7#8 : Byte).toNat < 8 ∧ 8 ≤ (8#8 : Byte).toNat := by decide

theorem witness_CanonicalMemoryIsUnique : Memory.wf [(255, 1#8)] = true ∧
    Memory.wf (Memory.write (Memory.write [] 255 1#8) 0 0#8) = true ∧
    ∀ a, Memory.read [(255, 1#8)] a = Memory.read (Memory.write (Memory.write [] 255 1#8) 0 0#8) a :=
  ⟨by decide, by decide, fun _ => rfl⟩

theorem witness_AluOperations : (1#8 : Byte).toNat < (2#8 : Byte).toNat ∧ (0x7F#8 : Byte).toNat < (0x80#8 : Byte).toNat ∧
    (0xFF#8 : Byte) = 0xFF#8 := by decide

theorem witness_LoadPlacesTheProgram : (List.replicate 256 (0x11#8 : Byte)).length ≤ 256 := by
  rw [List.length_replicate]

theorem witness_OverlongProgramFaults : 256 < (List.replicate 257 (0x11#8 : Byte)).length := by
  rw [List.length_replicate]; decide

theorem witness_ExitStatusTellsTheEndsApart : ExitCodes.Valid ⟨1, 2, 0⟩ ∧ State.reset.run = .running ∧
    SafeEnd (State.reset.setRun .halted) ∧ (takeFault (.unknownInstruction 0#8) State.reset).run = .faulted ∧
    (takeFault (.unknownInstruction 0#8) State.reset).cause = some (.unknownInstruction 0#8) :=
  ⟨by decide, rfl, rfl, rfl, rfl⟩

/-- The three conditions of CMP: greater across the sign bit, less, equal. -/
theorem witness_CmpSetsExactlyOneOutcome :
    (let s := at_ 0 [] [(0, 0x80#8), (1, 0x7F#8)]; (s.reg 1).toNat < (s.reg 0).toNat) ∧
    (let s := at_ 0 [] [(0, 0#8), (1, 0xFF#8)]; (s.reg 0).toNat < (s.reg 1).toNat) ∧
    (let s := at_ 0 [] [(0, 3#8), (1, 3#8)]; s.reg 0 = s.reg 1) := by decide

theorem witness_PushStoresBelowTheStack : (at_ 0 [0x45#8, 7#8] [(7, 0#8)]).mem.wf = true := by decide

theorem witness_PopLoadsFromTheStack : (0 : Fin 8) ≠ 7 ∧ (at_ 0 [] [(7, 0xFF#8)]).sp.toNat = 255 ∧
    (State.reset.mem.read (stackTop State.reset)).toNat ≠ 255 := by decide

theorem witness_CallSavesTheReturnAddress : (at_ 253 [0x50#8, 7#8] []).mem.wf = true ∧ (at_ 253 [0x50#8, 7#8] []).pc ≤ 253 := by
  decide

theorem witness_JeqJumpsOnEqual : (at_ 0 [] [] 1#8).fl = flagPatterns.equal ∧ (at_ 0 [] [] 4#8).fl ≠ flagPatterns.equal ∧
    State.reset.fl ≠ flagPatterns.equal := by decide

theorem witness_BadRegisterOperandFaults :
    badOperand (.add 9#8 10#8) State.reset = some 9#8 ∧ badOperand (.add 7#8 8#8) State.reset = some 8#8 ∧
    badOperand (.jeq 9#8) (at_ 0 [] [] 1#8) = some 9#8 ∧ badOperand (.jeq 9#8) State.reset = none := by decide

theorem witness_PcSequencing : badOperand (.call 7#8) State.reset = none ∧ badOperand (.ldi 7#8 9#8) State.reset = none ∧
    badOperand (.jeq 7#8) (at_ 0 [] [] 1#8) = none := by decide

theorem witness_OnlyCmpWritesAndOnlyJeqReadsFlags :
    (∃ t, exec (.jeq 0#8) (at_ 0 [] [] 4#8) = .next t) ∧
    ((at_ 0 [] [] 4#8).fl = flagPatterns.equal ↔ (2#8 : Byte) = flagPatterns.equal) ∧
    (∃ t, exec (.cmp 0#8 1#8) State.reset = .next t) ∧ badOperand (.cmp 0#8 1#8) State.reset = none ∧
    (0x00#8 : Byte) ≠ flagPatterns.equal ∧ (State.reset.reg 7).toNat ≠ State.reset.pc + 2 :=
  ⟨⟨_, rfl⟩, by decide, ⟨_, rfl⟩, by decide, by decide, by decide⟩

theorem witness_OnlyPushAndCallWriteMemory :
    (∃ t, exec (.push 7#8) State.reset = .next t ∧ t.mem.read 0xF2 ≠ State.reset.mem.read 0xF2) ∧
    ∃ t, exec (.call 0#8) State.reset = .next t ∧ t.mem.read 0xF2 ≠ State.reset.mem.read 0xF2 :=
  ⟨⟨_, rfl, by decide⟩, ⟨_, rfl, by decide⟩⟩

theorem witness_RegistersChangeOnlyWhereTheTableSays :
    ∃ t, exec (.ldi 7#8 1#8) State.reset = .next t ∧ t.reg 7 ≠ State.reset.reg 7 := ⟨_, rfl, by decide⟩

/-- Program P5's shape: the pushed byte lands on the very next opcode. -/
theorem witness_PushedByteIsFetchedNext :
    let s := at_ 0 [0x45#8, 0#8, 0x47#8] [(0, 1#8), (7, 3#8)]
    s.mem.wf = true ∧ stackTop (decSp s) = s.pc + 2 ∧
      ∃ t f, exec (.push (regByte 0)) s = .next t ∧ fetch t = .ok f ∧ f.ir = 1#8 :=
  ⟨by decide, by decide, _, _, rfl, rfl, by decide⟩

theorem witness_PushPopRoundTrip : State.reset.mem.wf = true ∧ State.reset.sp ≠ 0x00#8 ∧ (0 : Fin 8) ≠ 7 ∧
    (at_ 0 [] [(7, 0#8)]).mem.wf = true ∧ (at_ 0 [] [(7, 0#8)]).sp = 0x00#8 := by decide

theorem witness_CallThenRetResumesAfterTheCall :
    (at_ 253 [0x50#8, 1#8] []).mem.wf = true ∧ (at_ 253 [0x50#8, 1#8] []).pc ≤ 253 := by decide

/-- Two valid sets of flag patterns, greater and less exchanged, and a step under the first. -/
theorem witness_FlagPatternsDoNotMatter :
    let q : FlagPatterns := { less := 0x02#8, greater := 0x04#8, equal := 0x80#8 }
    flagPatterns.Valid ∧ q.Valid ∧ flagPatterns.Legal (at_ 0 [0xA7#8, 0#8, 7#8] [] 1#8).fl ∧
      ∃ t, stepWith defaultOpc flagPatterns (at_ 0 [0xA7#8, 0#8, 7#8] [] 1#8) = .next t :=
  ⟨by decide, by decide, by decide, _, rfl⟩

end Sys2Proof.Tests
end

section
/-! PROOFS of the register file's obligations (spec/10_state.md section 2): register access at any operand byte, and SP as register 7. -/

namespace Sys2Proof.Machine

/-- The byte stored is the integer mod 256 (R23), as an equation of integers. -/
theorem intCast_toNat_byteOf (v : Int) : ((byteOf v).toNat : Int) = v % 256 := by
  rw [toNat_byteOf, Int.toNat_of_nonneg (Int.emod_nonneg v (by decide))]

/-- A register operand reads the byte last written to it. -/
theorem readReg_setRegs_set_same (s : State) (i : Fin 8) (b : Byte) :
    readReg (BitVec.ofNat 8 i.val) (s.setRegs (s.regs.set i.val b)) = .ok b := by
  rw [readReg_valid, reg_setRegs_set, if_pos rfl]

/-- A write to one register leaves the read of every other operand byte as it was, its fault included. -/
theorem readReg_setRegs_set_ne (s : State) (i : Fin 8) (b : Byte) {q : Byte} (hq : q ≠ BitVec.ofNat 8 i.val) :
    readReg q (s.setRegs (s.regs.set i.val b)) = readReg q s := by
  obtain ⟨j, rfl⟩ | hq8 := operand_cases q
  · have hij : i ≠ j := fun e => hq (by rw [e])
    rw [readReg_valid, readReg_valid, reg_setRegs_set, if_neg hij]
  · rw [readReg_invalid hq8, readReg_invalid hq8]

/-- A write of SP changes no register but register 7 (R24). -/
theorem sameRegsBut_setSp (v : Int) (s : State) : SameRegsBut [7] s (s.setSp v) := by
  intro j hj
  have hj7 : 7 ≠ j := fun e => hj (List.mem_singleton.mpr e.symm)
  rw [reg_setSp, if_neg hj7]

/-- Settles O19: an operand byte names one of the eight registers, where the read and write laws of the register file apply,
or is 8 or more, where both accesses raise InvalidRegister. -/
theorem registerAccessPrimitives : Obligations.RegisterAccessPrimitives := by
  intro s r v
  obtain ⟨i, rfl⟩ | hr8 := operand_cases r
  · have hi : ¬ 8 ≤ (BitVec.ofNat 8 i.val).toNat := by rw [regByte_toNat]; omega
    refine ⟨fun _ => ⟨⟨s.reg i, readReg_valid i s⟩, s.setRegs (s.regs.set i.val (byteOf v)), byteOf v, ?_⟩, fun h => absurd h hi⟩
    exact ⟨writeReg_valid i v s, readReg_setRegs_set_same s i _, intCast_toNat_byteOf v,
      fun _ hq => readReg_setRegs_set_ne s i _ hq, rfl⟩
  · exact ⟨fun h => absurd h (by omega), fun _ => ⟨readReg_invalid hr8 s, writeReg_invalid hr8 v s⟩⟩

/-- Settles O20: SP is register 7, so the access laws of register 7 are those of SP. -/
theorem stackPointerIsRegister7 : Obligations.StackPointerIsRegister7 := by
  intro s v
  have hread : readReg 7#8 s = .ok s.sp := readReg_valid 7 s
  have hwrite : writeReg 7#8 v s = .ok (s.setSp v) := writeReg_valid 7 v s
  have hsp : ((s.setSp v).sp.toNat : Int) = v % 256 := by rw [sp_setSp, intCast_toNat_byteOf]
  exact ⟨hread, hwrite, hsp, sameRegsBut_setSp v s⟩

end Sys2Proof.Machine
end

section
/-! PROOFS of the memory's obligation (spec/20_memory.md R41, R42): MemRead and MemWrite inside and above the address space. -/

namespace Sys2Proof.Machine

theorem readMem_inRange {a : Nat} (ha : a ≤ 255) (s : State) : readMem a s = .ok (s.mem.read a) := by
  rw [readMem_eq, if_pos ha]

theorem readMem_outOfRange {a : Nat} (ha : 255 < a) (s : State) : readMem a s = .error (.outOfRange a) := by
  rw [readMem_eq, if_neg (Nat.not_le.mpr ha)]

theorem writeMem_inRange {a : Nat} (ha : a ≤ 255) (v : Byte) (s : State) :
    writeMem a v s = .ok (s.setMem (s.mem.write a v)) := by
  rw [writeMem, if_pos ha]

theorem writeMem_outOfRange {a : Nat} (ha : 255 < a) (v : Byte) (s : State) :
    writeMem a v s = .error (.outOfRange a) := by
  rw [writeMem, if_neg (Nat.not_le.mpr ha)]

/-- MemRead answers the byte last written to the address; the canonical form makes a written 0x00 read back as 0x00. -/
theorem readMem_setMem_write_same {s : State} {a : Nat} (ha : a ≤ 255) (v : Byte) (hwf : s.mem.wf = true) :
    readMem a (s.setMem (s.mem.write a v)) = .ok v := by
  rw [readMem_inRange ha, State.setMem_mem, Memory.read_write_same v hwf]

/-- A write to one address leaves MemRead at every other address as it was, its fault included. -/
theorem readMem_setMem_write_ne (s : State) {a b : Nat} (v : Byte) (hb : b ≠ a) :
    readMem b (s.setMem (s.mem.write a v)) = readMem b s := by
  rw [readMem_eq, readMem_eq, State.setMem_mem, Memory.read_write_other s.mem v hb]

/-- Settles O18: up to 255 the state MemWrite answers is the one with the written memory, where the read laws apply; above 255
both accesses raise OutOfRange. -/
theorem memoryAccessPrimitives : Obligations.MemoryAccessPrimitives := by
  intro s a v hwf
  refine ⟨fun ha => ⟨readMem_inRange ha s, s.setMem (s.mem.write a v), ?_⟩,
    fun ha => ⟨readMem_outOfRange ha s, writeMem_outOfRange ha v s⟩⟩
  exact ⟨writeMem_inRange ha v s, readMem_setMem_write_same ha v hwf,
    fun _ hb => readMem_setMem_write_ne s v hb, rfl⟩

end Sys2Proof.Machine
end

section
/-! PROOFS of the encoding's obligation (spec/30_encoding.md R61): the four formats and the address of byte k. -/

namespace Sys2Proof.Machine

/-- Settles O2: each constructor's encoding is its opcode before its operand bytes, by definition; a fetch that succeeds has read
the three cells at pc, pc + 1 and pc + 2 (`fetch_ok_inv`). -/
theorem formatsLayOutTheBytes : Obligations.FormatsLayOutTheBytes := by
  refine ⟨fun opc a b => ?_, fun s f hf => ?_⟩
  · exact ⟨rfl, rfl, rfl, rfl, rfl, rfl, rfl, rfl, rfl, rfl, rfl, rfl⟩
  · obtain ⟨-, rfl⟩ := fetch_ok_inv hf
    exact ⟨rfl, rfl, rfl⟩

end Sys2Proof.Machine
end

section
/-! PROOFS of the dispatch's obligation (spec/40_fetch_dispatch.md R84): the halt test before the table lookup. -/

namespace Sys2Proof.Machine

/-- R84: the halt test needs no distinct opcode bytes, because it is made before any table entry is compared. -/
theorem lookupOpcode_hlt (opc : OpcodeMap) : lookupOpcode opc (opc .hlt) = some .hlt := by
  rw [lookupOpcode, if_pos rfl]

/-- The byte OPC_HLT decodes to HLT, whatever bytes follow it. -/
theorem decodeWith_hlt (opc : OpcodeMap) (opa opb : Byte) : decodeWith opc (opc .hlt) opa opb = .ok .hlt := by
  simp only [decodeWith, lookupOpcode_hlt, assemble]

/-- R90: HLT sets RUN to Halted and does nothing else. -/
theorem execWith_hlt (fp : FlagPatterns) (s : State) : execWith fp .hlt s = .next (s.setRun .halted) := rfl

/-- A running core whose fetch reads OPC_HLT at PC halts in place (R84, R90). -/
theorem stepWith_hlt {opc : OpcodeMap} (fp : FlagPatterns) {s : State} (hrun : s.run = .running) (hpc : s.pc ≤ 253)
    (hbyte : s.mem.read s.pc = opc .hlt) : stepWith opc fp s = .next (s.setRun .halted) := by
  have hdecode : decodeWith opc (s.mem.read s.pc) (s.mem.read (s.pc + 1)) (s.mem.read (s.pc + 2)) = .ok .hlt := by
    rw [hbyte, decodeWith_hlt]
  rw [stepWith_exec hrun (fetch_ok hpc) hdecode, execWith_hlt]

/-- Settles O8: the step is the write of RUN alone (`stepWith_hlt`), so every other piece of state is as before. -/
theorem haltTestComesFirst : Obligations.HaltTestComesFirst := by
  intro opc fp s hrun hpc hbyte
  refine ⟨s.setRun .halted, stepWith_hlt fp hrun hpc hbyte, State.setRun_run _ s, State.setRun_cause _ s, State.setRun_pc _ s,
    State.setRun_fl _ s, State.setRun_outlog _ s, fun j _ => State.reg_setRun _ s j, fun a => ?_⟩
  rw [State.setRun_mem]

end Sys2Proof.Machine
end

section
/-! PROOFS of the output's obligation (spec/41_data_movement_output.md R102): only a PRN that completes writes OUTLOG, at its end. -/

namespace Sys2Proof.Machine

/-- A computation in a handler completes only by completing its first part and then the rest. -/
theorem exists_of_bind_eq_ok {α β : Type} {x : Except Cause α} {f : α → Except Cause β} {b : β} (h : x >>= f = .ok b) :
    ∃ a, x = .ok a ∧ f a = .ok b := by
  cases x with
  | error c => cases h
  | ok a => exact ⟨a, rfl, h⟩

theorem writeReg_outlog {r : Byte} {v : Int} {s t : State} (h : writeReg r v s = .ok t) : t.outlog = s.outlog := by
  unfold writeReg at h
  split at h
  · cases h; exact State.setRegs_outlog _ s
  · cases h

theorem writeMem_outlog {a : Nat} {v : Byte} {s t : State} (h : writeMem a v s = .ok t) : t.outlog = s.outlog := by
  unfold writeMem at h
  split at h
  · cases h; exact State.setMem_outlog _ s
  · cases h

theorem storeAluResult_outlog {r : Byte} {x : AluResult} {s t : State} (h : storeAluResult r x s = .ok t) :
    t.outlog = s.outlog := by
  cases x with
  | byte v => exact writeReg_outlog h
  | flags v => cases h; exact State.setFl_outlog v s

theorem aluHandler_outlog {fp : FlagPatterns} {op : AluOp} {r r' : Byte} {s t : State} (h : aluHandler fp op r r' s = .ok t) :
    t.outlog = s.outlog := by
  obtain ⟨a, -, h⟩ := exists_of_bind_eq_ok h
  obtain ⟨b, -, h⟩ := exists_of_bind_eq_ok h
  obtain ⟨x, -, h⟩ := exists_of_bind_eq_ok h
  obtain ⟨u, hstore, h⟩ := exists_of_bind_eq_ok h
  cases h
  rw [State.advance_outlog, storeAluResult_outlog hstore]

theorem jmpHandler_outlog {r : Byte} {s t : State} (h : jmpHandler r s = .ok t) : t.outlog = s.outlog := by
  obtain ⟨target, -, h⟩ := exists_of_bind_eq_ok h
  cases h
  rw [State.setPc_outlog]

/-- No handler but PRN's touches OUTLOG. -/
theorem handlerWith_outlog_of_not_prn {fp : FlagPatterns} {i : Instr} {s t : State} (hi : ∀ r, i ≠ .prn r)
    (h : handlerWith fp i s = .ok t) : t.outlog = s.outlog := by
  cases i with
  | hlt => cases h; rw [State.setRun_outlog]
  | ldi r v =>
    obtain ⟨u, hwrite, h⟩ := exists_of_bind_eq_ok h
    cases h
    rw [State.advance_outlog, writeReg_outlog hwrite]
  | prn r => exact absurd rfl (hi r)
  | add r r' => exact aluHandler_outlog h
  | mul r r' => exact aluHandler_outlog h
  | cmp r r' => exact aluHandler_outlog h
  | push r =>
    obtain ⟨v, -, h⟩ := exists_of_bind_eq_ok h
    obtain ⟨u, hwrite, h⟩ := exists_of_bind_eq_ok h
    cases h
    rw [State.advance_outlog, writeMem_outlog hwrite, decSp_outlog]
  | pop r =>
    obtain ⟨v, -, h⟩ := exists_of_bind_eq_ok h
    obtain ⟨u, hwrite, h⟩ := exists_of_bind_eq_ok h
    cases h
    rw [State.advance_outlog, incSp_outlog, writeReg_outlog hwrite]
  | call r =>
    obtain ⟨u, hwrite, h⟩ := exists_of_bind_eq_ok h
    obtain ⟨target, -, h⟩ := exists_of_bind_eq_ok h
    cases h
    rw [State.setPc_outlog, writeMem_outlog hwrite, decSp_outlog]
  | ret => rw [handlerWith, retHandler_eq] at h; cases h; rw [State.setPc_outlog]
  | jmp r => exact jmpHandler_outlog h
  | jeq r =>
    by_cases he : s.fl = fp.equal
    · rw [handlerWith, jeqHandler_taken he] at h
      exact jmpHandler_outlog h
    · rw [handlerWith, jeqHandler_not_taken he] at h
      cases h
      rw [State.advance_outlog]

/-- An instruction other than PRN leaves OUTLOG as it was, also when it faults. -/
theorem execWith_outlog_of_not_prn {fp : FlagPatterns} {i : Instr} {s t : State} (hi : ∀ r, i ≠ .prn r)
    (h : execWith fp i s = .next t) : t.outlog = s.outlog := by
  obtain hok | ⟨c, -, rfl⟩ := execWith_cases h
  · exact handlerWith_outlog_of_not_prn hi hok
  · rw [takeFault_outlog]

/-- R101: PRN of a register that exists appends its byte. -/
theorem execWith_prn_valid (fp : FlagPatterns) (i : Fin 8) (s : State) :
    execWith fp (.prn (BitVec.ofNat 8 i.val)) s = .next ((s.emit (s.reg i)).advance 2) := by
  rw [execWith, handlerWith, prnHandler_valid, commit_ok]

theorem execWith_prn_invalid (fp : FlagPatterns) {r : Byte} (hr : 8 ≤ r.toNat) (s : State) :
    execWith fp (.prn r) s = .next (takeFault (.invalidRegister r) s) := by
  rw [execWith, handlerWith, prnHandler_invalid hr, commit_error]

theorem emitted_of_fetch_error {s : State} {c : Cause} (hf : fetch s = .error c) : emitted s = [] := by
  simp only [emitted, hf]

theorem emitted_of_unknown {s : State} {f : Fetched} {e : DecodeError} (hf : fetch s = .ok f)
    (hd : decode f.ir f.opa f.opb = .error e) : emitted s = [] := by
  simp only [emitted, hf, hd]

theorem emitted_of_not_prn {s : State} {f : Fetched} {i : Instr} (hf : fetch s = .ok f)
    (hd : decode f.ir f.opa f.opb = .ok i) (hi : ∀ r, i ≠ .prn r) : emitted s = [] := by
  simp only [emitted, hf, hd]
  split
  · next r he => exact absurd (Except.ok.inj he) (hi r)
  · rfl

theorem emitted_of_prn_valid {s : State} {f : Fetched} {i : Fin 8} (hf : fetch s = .ok f)
    (hd : decode f.ir f.opa f.opb = .ok (.prn (BitVec.ofNat 8 i.val))) : emitted s = [s.reg i] := by
  simp only [emitted, hf, hd, readReg_valid]

theorem emitted_of_prn_invalid {s : State} {f : Fetched} {r : Byte} (hr : 8 ≤ r.toNat) (hf : fetch s = .ok f)
    (hd : decode f.ir f.opa f.opb = .ok (.prn r)) : emitted s = [] := by
  simp only [emitted, hf, hd, readReg_invalid hr]

/-- An executed instruction appends to OUTLOG what `emitted` computes from the fetched bytes and the registers. -/
theorem execWith_outlog {fp : FlagPatterns} {i : Instr} {f : Fetched} {s t : State} (hf : fetch s = .ok f)
    (hd : decode f.ir f.opa f.opb = .ok i) (h : execWith fp i s = .next t) : t.outlog = s.outlog ++ emitted s := by
  by_cases hprn : ∃ r, i = .prn r
  · obtain ⟨r, rfl⟩ := hprn
    obtain ⟨k, rfl⟩ | hr := operand_cases r
    · rw [execWith_prn_valid] at h
      cases h
      rw [emitted_of_prn_valid hf hd, State.advance_outlog, State.emit_outlog]
    · rw [execWith_prn_invalid fp hr] at h
      cases h
      rw [emitted_of_prn_invalid hr hf hd, takeFault_outlog, List.append_nil]
  · have hi : ∀ r, i ≠ .prn r := not_exists.mp hprn
    rw [emitted_of_not_prn hf hd hi, execWith_outlog_of_not_prn hi h, List.append_nil]

/-- One step appends to OUTLOG what it emits, and a step that faults in its fetch or its decoding emits nothing. -/
theorem step_outlog {s t : State} (h : step s = .next t) : t.outlog = s.outlog ++ emitted s := by
  rw [step_eq_stepWith] at h
  obtain ⟨-, ⟨c, hf, rfl⟩ | ⟨f, e, hf, hd, rfl⟩ | ⟨f, i, hf, hd, hexec⟩⟩ := stepWith_next_cases h
  · rw [emitted_of_fetch_error hf, takeFault_outlog, List.append_nil]
  · rw [emitted_of_unknown hf hd, takeFault_outlog, List.append_nil]
  · exact execWith_outlog hf hd hexec

theorem emittedBy_succ {s u : State} (n : Nat) (h : step s = .next u) : emittedBy (n + 1) s = emitted s ++ emittedBy n u := by
  simp only [emittedBy, h]

/-- Settles O17, by induction on the number of steps: the first step appends what it emits (`step_outlog`), the rest of the run
appends after that, and no step takes a byte away. -/
theorem outputIsThePrintedValuesInOrder : Obligations.OutputIsThePrintedValuesInOrder := by
  intro n
  induction n with
  | zero =>
    intro s t hrun
    cases hrun
    exact (List.append_nil _).symm
  | succ n ih =>
    intro s t hrun
    obtain ⟨u, hstep, hrest⟩ := hrun
    rw [ih u t hrest, step_outlog hstep, emittedBy_succ n hstep, List.append_assoc]

end Sys2Proof.Machine
end

section
/-! PROOFS of RET's obligation (spec/44_control_flow.md R142): the jump to the address at SP, which is not popped. -/

namespace Sys2Proof.Machine

/-- R142: the whole effect of RET is the write of PC. SP is a byte, so the read of the cell it addresses cannot fault. -/
theorem exec_ret (s : State) : exec .ret s = .next (s.setPc (s.mem.read s.sp.toNat).toNat) := by
  rw [exec, execRet, retHandler_eq, commit_ok, stackTop]

/-- A write of PC leaves SP, which is register 7 (R24), as it was. -/
@[simp] theorem sp_setPc (a : Nat) (s : State) : (s.setPc a).sp = s.sp := State.reg_setPc a s 7

/-- Settles O35: RET is the write of PC alone (`exec_ret`), so SP and every other piece of state are as before. -/
theorem retDoesNotPop : Obligations.RetDoesNotPop := by
  refine ⟨fun _ => rfl, fun s => ⟨s.setPc (s.mem.read s.sp.toNat).toNat, exec_ret s, State.setPc_pc _ s, ?_⟩⟩
  exact ⟨sp_setPc _ s, fun j _ => State.reg_setPc _ s j, fun a => by rw [State.setPc_mem], State.setPc_fl _ s,
    State.setPc_outlog _ s, State.setPc_run _ s, State.setPc_cause _ s⟩

end Sys2Proof.Machine
end

section
/-! PROOFS of the decoder's obligations (spec/30_encoding.md, spec/40_fetch_dispatch.md section 3): decoding and encoding agree, which bytes are
illegal, and the instruction whose encoding stands at PC runs. -/

namespace Sys2Proof.Machine

/-- An instruction is what its mnemonic assembles of any two bytes that begin with its operand bytes. -/
theorem assemble_mnemonic_of_operandBytes {i : Instr} {opa opb : Byte} (h : i.operandBytes <+: [opa, opb]) :
    assemble i.mnemonic opa opb = i := by
  cases i <;> simp_all [Instr.operandBytes, Instr.mnemonic, assemble, List.cons_prefix_cons]

/-- The encoding begins three bytes exactly when the opcode is the first of them and the operand bytes begin the rest. -/
theorem encodeWith_isPrefix_iff (opc : OpcodeMap) (i : Instr) (ir opa opb : Byte) :
    encodeWith opc i <+: [ir, opa, opb] ↔ opc i.mnemonic = ir ∧ i.operandBytes <+: [opa, opb] :=
  List.cons_prefix_cons

/-- The decoder answers what the mnemonic it looked up makes of the operand bytes. -/
theorem decodeWith_eq_ok_iff (opc : OpcodeMap) (ir opa opb : Byte) (i : Instr) :
    decodeWith opc ir opa opb = .ok i ↔ ∃ m, lookupOpcode opc ir = some m ∧ assemble m opa opb = i := by
  unfold decodeWith
  cases lookupOpcode opc ir <;> simp

/-- Settles O1: the lookup finds the mnemonic of a distinct opcode byte and no other, and assembling undoes the layout of the
operand bytes. -/
theorem decodeAgreesWithEncode : Obligations.DecodeAgreesWithEncode := by
  intro opc hopc i ir opa opb
  rw [decodeWith_eq_ok_iff, encodeWith_isPrefix_iff]
  constructor
  · rintro ⟨m, hm, rfl⟩
    rw [assemble_mnemonic]
    exact ⟨lookupOpcode_sound hm, assemble_operandBytes m opa opb⟩
  · rintro ⟨hir, hops⟩
    exact ⟨i.mnemonic, (lookupOpcode_eq_some_iff hopc ir _).mpr hir, assemble_mnemonic_of_operandBytes hops⟩

/-- The twelve mnemonics in the order the dispatcher tries them. -/
def allMnemonics : List Mnemonic := .hlt :: dispatchTable

theorem mem_allMnemonics (m : Mnemonic) : m ∈ allMnemonics :=
  List.mem_cons.mpr (mem_dispatchTable m)

/-- The opcode bytes of a map, as numbers. -/
def opcodeNumbers (opc : OpcodeMap) : List Nat := allMnemonics.map fun m => (opc m).toNat

theorem nodup_opcodeNumbers {opc : OpcodeMap} (hopc : opc.Distinct) : (opcodeNumbers opc).Nodup :=
  (show allMnemonics.Nodup by decide).map fun m n h => hopc m n (BitVec.eq_of_toNat_eq h)

/-- A byte value has an instruction exactly when it is one of the opcode numbers. -/
theorem lookupOpcode_isSome_iff (opc : OpcodeMap) {n : Nat} (hn : n < 256) :
    (lookupOpcode opc (BitVec.ofNat 8 n)).isSome = true ↔ n ∈ opcodeNumbers opc := by
  have hnone := lookupOpcode_eq_none_iff opc (BitVec.ofNat 8 n)
  have hbyte : ∀ m, opc m = BitVec.ofNat 8 n ↔ (opc m).toNat = n := fun m => by
    rw [← BitVec.toNat_inj, BitVec.toNat_ofNat, Nat.mod_eq_of_lt hn]
  rw [Option.isSome_iff_ne_none, ne_eq, hnone]
  simp [opcodeNumbers, mem_allMnemonics, hbyte]

/-- Twelve of the 256 byte values have an instruction: they are the opcode numbers, in another order. -/
theorem length_filter_legal {opc : OpcodeMap} (hopc : opc.Distinct) :
    ((List.range 256).filter fun n => (lookupOpcode opc (BitVec.ofNat 8 n)).isSome).length = 12 := by
  have hperm : ((List.range 256).filter fun n => (lookupOpcode opc (BitVec.ofNat 8 n)).isSome).Perm (opcodeNumbers opc) := by
    refine (List.perm_ext_iff_of_nodup (List.nodup_range.filter _) (nodup_opcodeNumbers hopc)).mpr fun n => ?_
    rw [List.mem_filter, List.mem_range]
    constructor
    · rintro ⟨hn, hsome⟩
      exact (lookupOpcode_isSome_iff opc hn).mp hsome
    · intro hmem
      obtain ⟨m, -, rfl⟩ := List.mem_map.mp hmem
      exact ⟨(opc m).isLt, (lookupOpcode_isSome_iff opc (opc m).isLt).mpr hmem⟩
  exact hperm.length_eq

/-- R86: a byte that is no opcode is refused by its value. -/
theorem decodeWith_illegal {opc : OpcodeMap} {ir : Byte} (h : ∀ m, opc m ≠ ir) (opa opb : Byte) :
    decodeWith opc ir opa opb = .error (.unknownInstruction ir) := by
  simp only [decodeWith, (lookupOpcode_eq_none_iff opc ir).mpr h]

/-- Settles O4: of the 256 byte values the twelve opcode numbers are legal, which leaves 244. -/
theorem illegalOpcodesAre244 : Obligations.IllegalOpcodesAre244 := by
  intro opc hopc
  refine ⟨?_, fun ir opa opb h => decodeWith_illegal h opa opb⟩
  have hsplit := List.length_eq_length_filter_add (l := List.range 256)
    (fun n => (lookupOpcode opc (BitVec.ofNat 8 n)).isSome)
  rw [length_filter_legal hopc, List.length_range] at hsplit
  simp only [Option.not_isSome] at hsplit
  omega

/-- Settles O3: each word is looked up in the table at the default opcode bytes. -/
theorem wordsOfTheOpcodeMapDecode : Obligations.WordsOfTheOpcodeMapDecode :=
  ⟨rfl, rfl, rfl, rfl, rfl, rfl, rfl⟩

/-- R63: the length column of the opcode map is the length of the encoding. -/
theorem length_encodeWith (opc : OpcodeMap) (i : Instr) : (encodeWith opc i).length = i.mnemonic.length := by
  cases i <;> rfl

/-- No instruction is longer than the three bytes a fetch reads (R4: MAX_ILEN). -/
theorem length_mnemonic_le (m : Mnemonic) : m.length ≤ 3 := by
  cases m <;> decide

/-- An encoding that stands in memory at PC begins the three bytes a fetch reads there. -/
theorem encodeWith_isPrefix_of_read {opc : OpcodeMap} {i : Instr} {s : State}
    (hread : ∀ (k : Nat) (b : Byte), (encodeWith opc i)[k]? = some b → s.mem.read (s.pc + k) = b) :
    encodeWith opc i <+: [s.mem.read s.pc, s.mem.read (s.pc + 1), s.mem.read (s.pc + 2)] := by
  refine List.prefix_iff_getElem?.mpr fun k hk => ?_
  have hk3 : k < 3 := hk.trans_le (length_encodeWith opc i ▸ length_mnemonic_le _)
  rw [← hread k _ (List.getElem?_eq_getElem hk)]
  obtain rfl | rfl | rfl : k = 0 ∨ k = 1 ∨ k = 2 := by omega
  · rfl
  · rfl
  · rfl

/-- A running core whose three bytes at PC decode runs the instruction's meaning, in the same state. -/
theorem stepWith_of_decode {opc : OpcodeMap} (fp : FlagPatterns) {s : State} {i : Instr} (hrun : s.run = .running)
    (hpc : s.pc ≤ 253)
    (hd : decodeWith opc (s.mem.read s.pc) (s.mem.read (s.pc + 1)) (s.mem.read (s.pc + 2)) = .ok i) :
    stepWith opc fp s = execWith fp i s :=
  stepWith_exec hrun (fetch_ok hpc) hd

/-- Settles O7: the bytes at PC begin with the encoding, so they decode to the instruction (`decodeAgreesWithEncode`). -/
theorem encodedInstructionAtPcRuns : Obligations.EncodedInstructionAtPcRuns := by
  intro opc fp s i hopc hrun hpc hread
  exact stepWith_of_decode fp hrun hpc ((decodeAgreesWithEncode opc hopc i _ _ _).mpr (encodeWith_isPrefix_of_read hread))

/-- Settles O6: the step at the default parameters is the parametric one, whose fetch moves nothing. -/
theorem stepRunsTheDecodedInstruction : Obligations.StepRunsTheDecodedInstruction := by
  intro s i hrun hpc hd
  rw [step_eq_stepWith, exec_eq_execWith]
  exact stepWith_of_decode flagPatterns hrun hpc hd

end Sys2Proof.Machine
end

section
/-! PROOFS of the step's obligations (spec/40_fetch_dispatch.md sections 1, 2 and 5, spec/60_exceptions.md): when there is a step, how it
ends, what it latches, and the invariant it keeps. -/

namespace Sys2Proof.Machine

/-- Taking a fault records it in RUN and CAUSE and leaves everything else (R167, R170). -/
theorem faultTaken_takeFault (c : Cause) (s : State) : FaultTaken c s (takeFault c s) :=
  ⟨rfl, rfl, fun _ _ => rfl, fun _ => rfl, rfl, rfl, rfl⟩

/-! ### When there is a step -/

/-- A running core answers a next state, whatever stands at PC. -/
theorem stepWith_next_of_running (opc : OpcodeMap) (fp : FlagPatterns) {s : State} (hrun : s.run = .running) :
    ∃ t, stepWith opc fp s = .next t := by
  cases hf : fetch s with
  | error c => exact ⟨_, stepWith_fetch_error hrun hf⟩
  | ok f =>
    cases hd : decodeWith opc f.ir f.opa f.opb with
    | error e => exact ⟨_, stepWith_unknown hrun hf hd⟩
    | ok i => rw [stepWith_exec hrun hf hd]; exact execWith_next fp i s

theorem step_running_of_next {s t : State} (h : step s = .next t) : s.run = .running :=
  (stepWith_next_cases (step_eq_stepWith s ▸ h)).1

/-- R80: a step answers a next state in Running, and one of the two named stops elsewhere. -/
theorem step_ne_refused (s : State) (r : Refusal) : step s ≠ .refused r := by
  rw [step_eq_stepWith]
  cases hrun : s.run with
  | running => obtain ⟨t, ht⟩ := stepWith_next_of_running defaultOpc flagPatterns hrun; simp [ht]
  | halted => simp [stepWith_halted hrun]
  | faulted => simp [stepWith_faulted hrun]

/-- Settles O5: a step needs Running (`stepWith_next_cases`), and Running is enough (`stepWith_next_of_running`). -/
theorem stepExactlyWhenRunning : Obligations.StepExactlyWhenRunning := by
  intro s
  refine ⟨⟨fun ⟨_, h⟩ => step_running_of_next h, fun hrun => ?_⟩, step_ne_refused s⟩
  rw [step_eq_stepWith]
  exact stepWith_next_of_running _ _ hrun

/-- Settles O9: one of the three addresses is past 255, and the first of them is 256 (`fetch_error`). -/
theorem fetchPastTheTopFaults : Obligations.FetchPastTheTopFaults := by
  intro s hrun hlow hhigh
  have hf : fetch s = .error (.outOfRange 256) := by rw [fetch_error hlow, Nat.max_eq_right hhigh]
  exact ⟨_, (step_eq_stepWith s).trans (stepWith_fetch_error hrun hf), faultTaken_takeFault _ s⟩

/-- Settles O10: the fetch succeeds and the lookup finds no mnemonic (`decodeWith_illegal`). -/
theorem unknownOpcodeFaults : Obligations.UnknownOpcodeFaults := by
  intro opc fp s hrun hpc h
  exact ⟨_, stepWith_unknown hrun (fetch_ok hpc) (decodeWith_illegal h _ _), faultTaken_takeFault _ s⟩

/-! ### How a step ends -/

/-- The causes a step can latch, each with where it comes from: the fetch at PC 254 or more, the decoder, a register access. -/
def StepCause (s : State) (c : Cause) : Prop :=
  (254 ≤ s.pc ∧ c = .outOfRange (max s.pc 256)) ∨ (∃ ir, c = .unknownInstruction ir) ∨ ∃ r, c = .invalidRegister r

/-- The decoded instruction has completed its handler, at the default parameters. -/
def StepCompletes (s : State) (i : Instr) (t : State) : Prop :=
  s.pc ≤ 253 ∧ decode (s.mem.read s.pc) (s.mem.read (s.pc + 1)) (s.mem.read (s.pc + 2)) = .ok i ∧
    handlerWith flagPatterns i s = .ok t

/-- A fetch that raises does so at PC 254 or more. -/
theorem stepCause_of_fetch_error {s : State} {c : Cause} (h : fetch s = .error c) : StepCause s c := by
  have hpc : 254 ≤ s.pc := by
    by_contra hlt
    rw [fetch_ok (by omega)] at h
    cases h
  rw [fetch_error hpc] at h
  cases h
  exact .inl ⟨hpc, rfl⟩

/-- The two ends of a step: a fault taken in the state it began with, or a handler that completed. -/
theorem step_next_cases {s t : State} (h : step s = .next t) :
    (∃ c, StepCause s c ∧ t = takeFault c s) ∨ ∃ i, StepCompletes s i t := by
  rw [step_eq_stepWith] at h
  obtain ⟨-, ⟨c, hf, rfl⟩ | ⟨f, ⟨ir⟩, hf, hd, rfl⟩ | ⟨f, i, hf, hd, hexec⟩⟩ := stepWith_next_cases h
  · exact .inl ⟨c, stepCause_of_fetch_error hf, rfl⟩
  · exact .inl ⟨_, .inr (.inl ⟨ir, rfl⟩), rfl⟩
  · obtain hok | ⟨c, herr, rfl⟩ := execWith_cases hexec
    · obtain ⟨hpc, rfl⟩ := fetch_ok_inv hf
      exact .inr ⟨i, hpc, hd, hok⟩
    · exact .inl ⟨c, .inr (.inr (handlerWith_error_invalid herr)), rfl⟩

/-- A step whose handler completes latches no cause, and RUN stays Running but for HLT. -/
theorem StepCompletes.status {s t : State} {i : Instr} (h : StepCompletes s i t) :
    t.cause = s.cause ∧ t.run = if i = .hlt then .halted else s.run := by
  obtain ⟨-, -, hok⟩ := h
  obtain ⟨-, hcause, hrun, -, -⟩ := handlerWith_ok_effect hok
  exact ⟨hcause, hrun⟩

theorem StepCompletes.run_ne_faulted {s t : State} {i : Instr} (h : StepCompletes s i t) (hs : s.run = .running) :
    t.run ≠ .faulted := by
  rw [h.status.2, hs]
  split <;> simp

/-- Settles O13: a completed handler does not end Faulted, and the other end is a fault taken. -/
theorem faultsArePrecise : Obligations.FaultsArePrecise := by
  intro s t hstep hfaulted
  obtain ⟨c, -, rfl⟩ | ⟨i, hi⟩ := step_next_cases hstep
  · exact ⟨c, faultTaken_takeFault c s⟩
  · exact absurd hfaulted (hi.run_ne_faulted (step_running_of_next hstep))

/-! ### The invariant -/

/-- No cause is latched while the core runs. -/
theorem Inv.cause_of_running {s : State} (hinv : Inv s) (hrun : s.run = .running) : s.cause = none := by
  have h := hinv.causeLatched
  rw [hrun] at h
  simpa using h

/-- A completed step keeps FL legal: it is as it was, or a pattern of CMP. -/
theorem StepCompletes.legal {s t : State} {i : Instr} (h : StepCompletes s i t) (hs : flagPatterns.Legal s.fl) :
    flagPatterns.Legal t.fl := by
  obtain ⟨-, -, hok⟩ := h
  obtain ⟨-, -, -, hfl | ⟨a, b, -, -, -, hfl⟩, -⟩ := handlerWith_ok_effect hok
  · exact hfl ▸ hs
  · exact hfl ▸ compareFlags_legal _ a b

/-- R28: a completed step leaves PC in 0 to 256, since it began at 253 or less. -/
theorem StepCompletes.pc_le {s t : State} {i : Instr} (h : StepCompletes s i t) : t.pc ≤ 256 := by
  obtain ⟨hpc, -, hok⟩ := h
  obtain ⟨-, -, -, -, hnext⟩ := handlerWith_ok_effect hok
  omega

theorem Inv.takeFault {s : State} (hinv : Inv s) (c : Cause) : Inv (takeFault c s) :=
  ⟨hinv.memory, hinv.pcRange, hinv.flags, by simp⟩

/-- Settles O11: a fault latches its cause and keeps the rest; a completed handler keeps the form of memory, the range of PC and the
legal flags, and latches nothing. -/
theorem stepKeepsInvariant : Obligations.StepKeepsInvariant := by
  intro s t hinv hstep
  have hrun := step_running_of_next hstep
  obtain ⟨c, -, rfl⟩ | ⟨i, hi⟩ := step_next_cases hstep
  · exact hinv.takeFault c
  · have hmem : t.mem.wf = true := (handlerWith_ok_effect hi.2.2).1 hinv.memory
    have hcause : t.cause = none := hi.status.1.trans (hinv.cause_of_running hrun)
    exact ⟨hmem, hi.pc_le, hi.legal hinv.flags, by simp [hcause, hi.run_ne_faulted hrun]⟩

/-- Settles O12: memory is the empty list, PC and FL are 0, no cause is latched and RUN is not Faulted. -/
theorem resetMeetsInvariant : Obligations.ResetMeetsInvariant :=
  ⟨Memory.wf_nil, Nat.zero_le _, .inl rfl, by decide⟩

/-! ### Transitions, causes and the top of the address space -/

/-- R84: a fetch of OPC_HLT halts the core. -/
theorem step_run_halted_of_fetch {s t : State} {f : Fetched} (hstep : step s = .next t) (hf : fetch s = .ok f)
    (hir : f.ir = defaultOpc .hlt) : t.run = .halted := by
  have hrun := step_running_of_next hstep
  obtain ⟨hpc, rfl⟩ := fetch_ok_inv hf
  rw [step_eq_stepWith, stepWith_hlt _ hrun hpc hir] at hstep
  cases hstep
  rfl

/-- Only the byte OPC_HLT decodes to HLT. -/
theorem opcode_of_decodeWith_hlt {opc : OpcodeMap} {ir opa opb : Byte} (h : decodeWith opc ir opa opb = .ok .hlt) :
    ir = opc .hlt := by
  obtain ⟨m, hm, hi⟩ := (decodeWith_eq_ok_iff opc ir opa opb .hlt).mp h
  have hmhlt : m = .hlt := by rw [← assemble_mnemonic m opa opb, hi]; rfl
  rw [← lookupOpcode_sound hm, hmhlt]

/-- A completed step halts only by HLT, whose opcode the fetch then read. -/
theorem StepCompletes.fetch_hlt {s t : State} {i : Instr} (h : StepCompletes s i t) (hs : s.run = .running)
    (ht : t.run = .halted) : ∃ f, fetch s = .ok f ∧ f.ir = defaultOpc .hlt := by
  have hrun := h.status.2
  obtain ⟨hpc, hd, -⟩ := h
  have hi : i = .hlt := by
    by_contra hne
    rw [if_neg hne, hs, ht] at hrun
    cases hrun
  subst hi
  exact ⟨_, fetch_ok hpc, opcode_of_decodeWith_hlt hd⟩

/-- Settles O14: by the two ends of a step; a fault ends Faulted with its cause, a completed handler latches none, and it ends Halted
exactly by HLT. -/
theorem runStateTransitions : Obligations.RunStateTransitions := by
  intro s t hinv hstep
  have hrun := step_running_of_next hstep
  refine ⟨hrun, ⟨fun hhalted => ?_, fun ⟨f, hf, hir⟩ => step_run_halted_of_fetch hstep hf hir⟩, ?_⟩
  · obtain ⟨c, -, rfl⟩ | ⟨i, hi⟩ := step_next_cases hstep
    · cases hhalted
    · exact hi.fetch_hlt hrun hhalted
  · rw [(stepKeepsInvariant s t hinv hstep).causeLatched, Option.isSome_iff_exists]

/-- Settles O15: the cause latched is the step's own, and of those only the fetch's is OutOfRange. -/
theorem onlyTheFetchIsOutOfRange : Obligations.OnlyTheFetchIsOutOfRange := by
  intro s t c hinv hstep hc
  obtain ⟨d, hd, rfl⟩ | ⟨i, hi⟩ := step_next_cases hstep
  · cases hc
    obtain ⟨hpc, rfl⟩ | ⟨ir, rfl⟩ | ⟨r, rfl⟩ := hd
    · refine ⟨fun a ha => ⟨hpc, ?_⟩, by simp, by simp⟩
      cases ha
      exact Nat.max_eq_right hinv.pcRange
    · simp
    · simp
  · rw [hi.status.1, hinv.cause_of_running (step_running_of_next hstep)] at hc
    cases hc

/-- Settles O16: no fault moves PC, and of the ways a completed handler sets PC only `pc + 3` of a three-byte instruction at 253
reaches 256. -/
theorem pcReaches256OnlyFrom253 : Obligations.PcReaches256OnlyFrom253 := by
  intro s t _ hpc hstep ht
  obtain ⟨c, -, rfl⟩ | ⟨i, hle, hd, hok⟩ := step_next_cases hstep
  · rw [takeFault_pc] at ht
    omega
  · obtain ⟨-, -, -, -, hnext⟩ := handlerWith_ok_effect hok
    obtain ⟨h253, hlen⟩ : s.pc = 253 ∧ i.mnemonic.length = 3 := by omega
    rw [h253] at hd
    exact ⟨h253, i, hd, (length_encodeWith defaultOpc i).trans hlen⟩

end Sys2Proof.Machine
end

section
/-! PROOFS about all instructions at once. `Completes` is the table of what each handler computes and `handlerWith_outcome` the one case
split over all of them: a handler completes as the table says, or raises InvalidRegister of the first bad operand it uses. -/

namespace Sys2Proof.Machine

/-! ### What a handler does -/

/-- The instruction completes from `s` in the state given, under the flag patterns `fp`: one row per instruction, two for JEQ, register
operands 0 to 7. Tied to the handlers by `handlerWith_eq_ok_iff`. -/
inductive Completes (fp : FlagPatterns) (s : State) : Instr → State → Prop
  | hlt : Completes fp s .hlt (s.setRun .halted)
  | ldi (i : Fin 8) (v : Byte) : Completes fp s (.ldi (regByte i) v) ((s.setRegs (s.regs.set i.val v)).advance 3)
  | prn (i : Fin 8) : Completes fp s (.prn (regByte i)) ((s.emit (s.reg i)).advance 2)
  | add (i j : Fin 8) : Completes fp s (.add (regByte i) (regByte j))
      ((s.setRegs (s.regs.set i.val (byteOf (((s.reg i).toNat : Int) + (s.reg j).toNat)))).advance 3)
  | mul (i j : Fin 8) : Completes fp s (.mul (regByte i) (regByte j))
      ((s.setRegs (s.regs.set i.val (byteOf (((s.reg i).toNat : Int) * (s.reg j).toNat)))).advance 3)
  | cmp (i j : Fin 8) : Completes fp s (.cmp (regByte i) (regByte j))
      ((s.setFl (compareFlags fp (s.reg i) (s.reg j))).advance 3)
  | push (i : Fin 8) : Completes fp s (.push (regByte i))
      (((decSp s).setMem (s.mem.write (stackTop (decSp s)) ((decSp s).reg i))).advance 2)
  | pop (i : Fin 8) : Completes fp s (.pop (regByte i))
      ((incSp (s.setRegs (s.regs.set i.val (s.mem.read (stackTop s))))).advance 2)
  | call (i : Fin 8) : Completes fp s (.call (regByte i))
      (((decSp s).setMem (s.mem.write (stackTop (decSp s)) (byteOf ((s.pc : Int) + 2)))).setPc ((decSp s).reg i).toNat)
  | ret : Completes fp s .ret (s.setPc (s.mem.read (stackTop s)).toNat)
  | jmp (i : Fin 8) : Completes fp s (.jmp (regByte i)) (s.setPc (s.reg i).toNat)
  | jeqTaken (i : Fin 8) (h : s.fl = fp.equal) : Completes fp s (.jeq (regByte i)) (s.setPc (s.reg i).toNat)
  | jeqNotTaken (r : Byte) (h : s.fl ≠ fp.equal) : Completes fp s (.jeq r) (s.advance 2)

/-- A row of the table is what the handler computes. -/
theorem Completes.handlerWith_eq {fp : FlagPatterns} {s t : State} {i : Instr} (h : Completes fp s i t) :
    handlerWith fp i s = .ok t := by
  cases h with
  | hlt => rfl
  | ldi i v => exact ldiHandler_valid i v s
  | prn i => exact prnHandler_valid i s
  | add i j => exact aluHandler_add fp i j s
  | mul i j => exact aluHandler_mul fp i j s
  | cmp i j => exact aluHandler_cmp fp i j s
  | push i => exact pushHandler_valid i s
  | pop i => exact popHandler_valid i s
  | call i => exact callHandler_valid i s
  | ret => exact retHandler_eq s
  | jmp i => exact jmpHandler_valid i s
  | jeqTaken i h => exact (jeqHandler_taken h _).trans (jmpHandler_valid i s)
  | jeqNotTaken r h => exact jeqHandler_not_taken h r

/-- The register operand bytes an instruction uses under the flag patterns `fp`, which decide whether a JEQ reads its own. -/
def usedRegsWith (fp : FlagPatterns) (i : Instr) (s : State) : List Byte :=
  match i with
  | .jeq reg => if s.fl = fp.equal then [reg] else []
  | i => usedRegs i s

/-- The first bad operand byte an instruction uses under the flag patterns `fp`. -/
def badOperandWith (fp : FlagPatterns) (i : Instr) (s : State) : Option Byte :=
  (usedRegsWith fp i s).find? fun r => !validReg r

theorem badOperandWith_flagPatterns (i : Instr) (s : State) : badOperandWith flagPatterns i s = badOperand i s := by
  cases i <;> rfl

/-- The first bad operand comes after an operand that names a register. -/
theorem find_bad_valid (k : Fin 8) (l : List Byte) :
    (regByte k :: l).find? (fun r => !validReg r) = l.find? fun r => !validReg r := by
  have hk : validReg (regByte k) = true := decide_eq_true ((regByte_toNat k).trans_lt k.isLt)
  exact List.find?_cons_of_neg (by simp [hk])

/-- An operand of 8 or more is the first bad one of a list it begins. -/
theorem find_bad_invalid {r : Byte} (hr : 8 ≤ r.toNat) (l : List Byte) :
    (r :: l).find? (fun r => !validReg r) = some r :=
  List.find?_cons_of_pos (by simpa [validReg] using hr)

/-- What the handler of an instruction does from `s`: it completes, or raises InvalidRegister of the first bad operand it uses. -/
def HandlerOutcome (fp : FlagPatterns) (i : Instr) (s : State) : Prop :=
  (badOperandWith fp i s = none ∧ ∃ t, Completes fp s i t) ∨
    ∃ r, badOperandWith fp i s = some r ∧ handlerWith fp i s = .error (.invalidRegister r)

theorem handlerOutcome_of_no_operand {fp : FlagPatterns} {i : Instr} {s t : State} (hused : usedRegsWith fp i s = [])
    (hok : Completes fp s i t) : HandlerOutcome fp i s :=
  .inl ⟨by rw [badOperandWith, hused, List.find?_nil], t, hok⟩

/-- An instruction that uses one register operand completes when it names a register, and raises when it does not. -/
theorem handlerOutcome_of_one_operand {fp : FlagPatterns} {s : State} {r : Byte} (f : Byte → Instr)
    (hused : usedRegsWith fp (f r) s = [r]) (hok : ∀ k, ∃ t, Completes fp s (f (regByte k)) t)
    (herr : 8 ≤ r.toNat → handlerWith fp (f r) s = .error (.invalidRegister r)) : HandlerOutcome fp (f r) s := by
  rw [HandlerOutcome, badOperandWith, hused]
  obtain ⟨k, rfl⟩ | hr := operand_cases r
  · exact .inl ⟨find_bad_valid k [], hok k⟩
  · exact .inr ⟨r, find_bad_invalid hr [], herr hr⟩

/-- ADD, MUL and CMP: regA is checked before regB (R168). -/
theorem handlerOutcome_of_alu {fp : FlagPatterns} {s : State} {op : AluOp} {r r' : Byte} (f : Byte → Byte → Instr)
    (hused : usedRegsWith fp (f r r') s = [r, r']) (hf : handlerWith fp (f r r') s = aluHandler fp op r r' s)
    (hok : ∀ k l, ∃ t, Completes fp s (f (regByte k) (regByte l)) t) : HandlerOutcome fp (f r r') s := by
  rw [HandlerOutcome, badOperandWith, hused, hf]
  obtain ⟨k, rfl⟩ | hr := operand_cases r
  · obtain ⟨l, rfl⟩ | hr' := operand_cases r'
    · exact .inl ⟨(find_bad_valid k _).trans (find_bad_valid l []), hok k l⟩
    · exact .inr ⟨r', (find_bad_valid k _).trans (find_bad_invalid hr' []), aluHandler_invalid_right fp op k hr' s⟩
  · exact .inr ⟨r, find_bad_invalid hr _, aluHandler_invalid_left fp op hr r' s⟩

/-- Every handler either completes, with no bad operand, or raises InvalidRegister of the first bad one. -/
theorem handlerWith_outcome (fp : FlagPatterns) (i : Instr) (s : State) : HandlerOutcome fp i s := by
  cases i with
  | hlt => exact handlerOutcome_of_no_operand rfl .hlt
  | ldi r v => exact handlerOutcome_of_one_operand (.ldi · v) rfl (fun k => ⟨_, .ldi k v⟩) fun hr => ldiHandler_invalid hr v s
  | prn r => exact handlerOutcome_of_one_operand .prn rfl (fun k => ⟨_, .prn k⟩) fun hr => prnHandler_invalid hr s
  | add r r' => exact handlerOutcome_of_alu .add rfl rfl fun k l => ⟨_, .add k l⟩
  | mul r r' => exact handlerOutcome_of_alu .mul rfl rfl fun k l => ⟨_, .mul k l⟩
  | cmp r r' => exact handlerOutcome_of_alu .cmp rfl rfl fun k l => ⟨_, .cmp k l⟩
  | push r => exact handlerOutcome_of_one_operand .push rfl (fun k => ⟨_, .push k⟩) fun hr => pushHandler_invalid hr s
  | pop r => exact handlerOutcome_of_one_operand .pop rfl (fun k => ⟨_, .pop k⟩) fun hr => popHandler_invalid hr s
  | call r => exact handlerOutcome_of_one_operand .call rfl (fun k => ⟨_, .call k⟩) fun hr => callHandler_invalid hr s
  | ret => exact handlerOutcome_of_no_operand rfl .ret
  | jmp r => exact handlerOutcome_of_one_operand .jmp rfl (fun k => ⟨_, .jmp k⟩) fun hr => jmpHandler_invalid hr s
  | jeq r =>
    by_cases he : s.fl = fp.equal
    · exact handlerOutcome_of_one_operand .jeq (if_pos he) (fun k => ⟨_, .jeqTaken k he⟩)
        fun hr => (jeqHandler_taken he r).trans (jmpHandler_invalid hr s)
    · exact handlerOutcome_of_no_operand (if_neg he) (.jeqNotTaken r he)

/-- A handler completes exactly as the table says. -/
theorem handlerWith_eq_ok_iff {fp : FlagPatterns} {i : Instr} {s t : State} :
    handlerWith fp i s = .ok t ↔ Completes fp s i t := by
  refine ⟨fun h => ?_, Completes.handlerWith_eq⟩
  obtain ⟨-, u, hu⟩ | ⟨r, -, herr⟩ := handlerWith_outcome fp i s
  · cases h.symm.trans hu.handlerWith_eq
    exact hu
  · cases h.symm.trans herr

theorem exists_completes_of_no_bad {fp : FlagPatterns} {i : Instr} {s : State} (h : badOperandWith fp i s = none) :
    ∃ t, Completes fp s i t := by
  obtain ⟨-, ht⟩ | ⟨r, hr, -⟩ := handlerWith_outcome fp i s
  · exact ht
  · cases h.symm.trans hr

theorem handlerWith_error_of_bad {fp : FlagPatterns} {i : Instr} {s : State} {r : Byte} (h : badOperandWith fp i s = some r) :
    handlerWith fp i s = .error (.invalidRegister r) := by
  obtain ⟨hnone, -⟩ | ⟨r', hr', herr⟩ := handlerWith_outcome fp i s
  · cases h.symm.trans hnone
  · cases h.symm.trans hr'
    exact herr

/-! ### The meaning of an instruction, by the same table -/

theorem Completes.execWith_eq {fp : FlagPatterns} {s t : State} {i : Instr} (h : Completes fp s i t) :
    execWith fp i s = .next t := by
  rw [execWith, h.handlerWith_eq, commit_ok]

theorem execWith_of_bad {fp : FlagPatterns} {i : Instr} {s : State} {r : Byte} (h : badOperandWith fp i s = some r) :
    execWith fp i s = .next (takeFault (.invalidRegister r) s) := by
  rw [execWith, handlerWith_error_of_bad h, commit_error]

theorem Completes.exec_eq {s t : State} {i : Instr} (h : Completes flagPatterns s i t) : exec i s = .next t :=
  (exec_eq_execWith i s).trans h.execWith_eq

/-- An instruction completes as the table says, or takes the fault of its first bad operand. -/
theorem execWith_outcome {fp : FlagPatterns} {i : Instr} {s t : State} (h : execWith fp i s = .next t) :
    Completes fp s i t ∨ ∃ r, badOperandWith fp i s = some r ∧ t = takeFault (.invalidRegister r) s := by
  obtain ⟨-, u, hu⟩ | ⟨r, hr, -⟩ := handlerWith_outcome fp i s
  · cases h.symm.trans hu.execWith_eq
    exact .inl hu
  · cases h.symm.trans (execWith_of_bad hr)
    exact .inr ⟨r, hr, rfl⟩

theorem exec_outcome {i : Instr} {s t : State} (h : exec i s = .next t) :
    Completes flagPatterns s i t ∨ ∃ r, badOperand i s = some r ∧ t = takeFault (.invalidRegister r) s := by
  rw [← badOperandWith_flagPatterns]
  exact execWith_outcome (exec_eq_execWith i s ▸ h)

theorem exists_completes_of_badOperand {i : Instr} {s : State} (h : badOperand i s = none) :
    ∃ t, Completes flagPatterns s i t :=
  exists_completes_of_no_bad ((badOperandWith_flagPatterns i s).trans h)

/-! ### Faults, the next PC, and what an instruction writes -/

/-- Settles O39: the two outcomes of a handler (`handlerWith_outcome`), with the status of the one that completes. -/
theorem badRegisterOperandFaults : Obligations.BadRegisterOperandFaults := by
  intro i s
  refine ⟨fun r hr => ?_, fun hnone => ?_⟩
  · rw [exec_eq_execWith, execWith_of_bad ((badOperandWith_flagPatterns i s).trans hr)]
    exact ⟨_, rfl, faultTaken_takeFault _ s⟩
  · obtain ⟨t, ht⟩ := exists_completes_of_badOperand hnone
    obtain ⟨-, hcause, hrun, -, -⟩ := handlerWith_ok_effect ht.handlerWith_eq
    exact ⟨t, ht.exec_eq, hcause, hrun⟩

/-- Settles O40: the PC column of the table, row by row. -/
theorem pcSequencing : Obligations.PcSequencing := by
  intro i s hnone
  obtain ⟨t, ht⟩ := exists_completes_of_badOperand hnone
  refine ⟨t, ht.exec_eq, ?_⟩
  cases ht with
  | hlt => rfl
  | ldi i v => rfl
  | prn i => rfl
  | add i j => rfl
  | mul i j => rfl
  | cmp i j => rfl
  | push i => rfl
  | pop i => exact congrArg (· + 2) (incSp_pc _)
  | call i => exact ⟨_, readReg_valid i (decSp s), rfl⟩
  | ret => exact ⟨_, readMem_stackTop s s, rfl⟩
  | jmp i => exact ⟨_, readReg_valid i s, rfl⟩
  | jeqTaken i h => exact (if_pos h).mpr ⟨_, readReg_valid i s, rfl⟩
  | jeqNotTaken r h => exact (if_neg h).mpr rfl

/-- R43: a completed instruction leaves memory as it was, or is a PUSH or CALL and writes the cell at the decremented SP. -/
theorem Completes.mem_cases {fp : FlagPatterns} {s t : State} {i : Instr} (h : Completes fp s i t) :
    t.mem = s.mem ∨ (∃ v, t.mem = s.mem.write (stackTop (decSp s)) v) ∧ ((∃ r, i = .push r) ∨ ∃ r, i = .call r) := by
  cases h with
  | push i => exact .inr ⟨⟨_, rfl⟩, .inl ⟨_, rfl⟩⟩
  | call i => exact .inr ⟨⟨_, rfl⟩, .inr ⟨_, rfl⟩⟩
  | pop i => exact .inl (incSp_mem _)
  | _ => exact .inl rfl

/-- Settles O42: a fault writes no cell and a completed instruction only the one at the decremented SP (`Completes.mem_cases`). -/
theorem onlyPushAndCallWriteMemory : Obligations.OnlyPushAndCallWriteMemory := by
  intro i s t a hexec hne
  obtain ht | ⟨r, -, rfl⟩ := exec_outcome hexec
  · obtain hmem | ⟨⟨v, hmem⟩, hi⟩ := ht.mem_cases
    · exact absurd (by rw [hmem]) hne
    · refine ⟨?_, hi⟩
      by_contra ha
      exact hne (by rw [hmem, Memory.read_write_other _ v ha])
  · exact absurd rfl hne

/-- A write to register `i` changes no other. -/
theorem sameRegsBut_setRegs_set (s : State) (i : Fin 8) (v : Byte) : SameRegsBut [i] s (s.setRegs (s.regs.set i.val v)) := by
  intro j hj
  have hij : i ≠ j := fun e => hj (List.mem_singleton.mpr e.symm)
  rw [reg_setRegs_set, if_neg hij]

/-- POP's increment changes no register but SP. -/
theorem sameRegsBut_incSp (s : State) : SameRegsBut [7] s (incSp s) :=
  fun _ hj => reg_incSp (fun e => hj (List.mem_singleton.mpr e)) s

/-- R133: the decrement changes no register but SP. -/
theorem sameRegsBut_decSp (s : State) : SameRegsBut [7] s (decSp s) :=
  sameRegsBut_setSp _ s

/-- A change to one register after another changes at most the two. -/
theorem SameRegsBut.trans_cons {i k : Fin 8} {s t u : State} (h : SameRegsBut [i] s t) (h' : SameRegsBut [k] t u) :
    SameRegsBut [i, k] s u := by
  intro j hj
  simp only [List.mem_cons, not_or] at hj
  obtain ⟨hi, hk, -⟩ := hj
  rw [h' j (by simpa using hk), h j (by simpa using hi)]

/-- A register that differs is one of those written. -/
theorem SameRegsBut.mem_of_ne {written : List (Fin 8)} {s t : State} {j : Fin 8} (h : SameRegsBut written s t)
    (hne : t.reg j ≠ s.reg j) : j ∈ written := by
  by_contra hj
  exact hne (h j hj)

/-- R132: POP writes its destination and SP. -/
theorem sameRegsBut_pop (s : State) (i : Fin 8) (v : Byte) : SameRegsBut [i, 7] s (incSp (s.setRegs (s.regs.set i.val v))) :=
  (sameRegsBut_setRegs_set s i v).trans_cons (sameRegsBut_incSp _)

/-- Settles O43: the registers each row of the table writes; a fault writes none. -/
theorem registersChangeOnlyWhereTheTableSays : Obligations.RegistersChangeOnlyWhereTheTableSays := by
  intro i s t j hexec hne
  obtain ht | ⟨r, -, rfl⟩ := exec_outcome hexec
  · have hdest : ∀ (i : Fin 8) (v : Byte), (s.setRegs (s.regs.set i.val v)).reg j ≠ s.reg j → regByte i = regByte j :=
      fun i v h => congrArg regByte (List.mem_singleton.mp ((sameRegsBut_setRegs_set s i v).mem_of_ne h)).symm
    have hsp : (decSp s).reg j ≠ s.reg j → j = 7 := fun h => List.mem_singleton.mp ((sameRegsBut_decSp s).mem_of_ne h)
    cases ht with
    | ldi i v => exact hdest i _ hne
    | add i j => exact hdest i _ hne
    | mul i j => exact hdest i _ hne
    | push i => exact hsp hne
    | call i => exact hsp hne
    | pop i =>
      have hmem := (sameRegsBut_pop s i (s.mem.read (stackTop s))).mem_of_ne hne
      obtain rfl | rfl : j = i ∨ j = 7 := by simpa using hmem
      · exact .inl rfl
      · exact .inr rfl
    | _ => exact hne rfl
  · exact absurd rfl hne

end Sys2Proof.Machine
end

section
/-! PROOFS about FL (spec/10_state.md R29, R30; spec/00_scope.md R6): only CMP writes it, only JEQ reads it, and its patterns do not matter. Both
obligations rest on `Completes.setFl`: a completed instruction run with another FL, under other patterns, completes in the same state but for FL. -/

namespace Sys2Proof.Machine

/-- The instruction `i` tests FL alike in two places: if it is a JEQ, both FL bytes are FL_E of their patterns, or neither is. -/
def SameTest (p q : FlagPatterns) (i : Instr) (v w : Byte) : Prop :=
  ∀ r, i = .jeq r → (v = p.equal ↔ w = q.equal)

/-- What becomes of `Completes p s i t` when FL is `v` and the patterns are `q`: CMP writes the pattern of the same comparison, every other
instruction keeps FL. -/
def CompletesWithFl (p q : FlagPatterns) (s t : State) (i : Instr) (v : Byte) : Prop :=
  (∃ r r' a b, i = .cmp r r' ∧ t.fl = compareFlags p a b ∧ Completes q (s.setFl v) i (t.setFl (compareFlags q a b))) ∨
    (∀ r r', i ≠ .cmp r r') ∧ t.fl = s.fl ∧ Completes q (s.setFl v) i (t.setFl v)

/-- No row of the table but JEQ's reads FL, and none but CMP's writes it (R30). -/
theorem Completes.setFl {p : FlagPatterns} (q : FlagPatterns) {s t : State} {i : Instr} {v : Byte} (h : Completes p s i t)
    (htest : SameTest p q i s.fl v) : CompletesWithFl p q s t i v := by
  cases h with
  | cmp i j => exact .inl ⟨_, _, s.reg i, s.reg j, rfl, rfl, .cmp i j⟩
  | hlt => exact .inr ⟨by simp, rfl, .hlt⟩
  | ldi i b => exact .inr ⟨by simp, rfl, .ldi i b⟩
  | prn i => exact .inr ⟨by simp, rfl, .prn i⟩
  | add i j => exact .inr ⟨by simp, rfl, .add i j⟩
  | mul i j => exact .inr ⟨by simp, rfl, .mul i j⟩
  | push i => exact .inr ⟨by simp, rfl, .push i⟩
  | pop i =>
    refine .inr ⟨by simp, incSp_fl _, ?_⟩
    have hpop := Completes.pop (fp := q) (s := s.setFl v) i
    rwa [show ∀ m, (s.setFl v).setRegs m = (s.setRegs m).setFl v from fun _ => rfl, incSp_setFl] at hpop
  | call i => exact .inr ⟨by simp, rfl, .call i⟩
  | ret => exact .inr ⟨by simp, rfl, .ret⟩
  | jmp i => exact .inr ⟨by simp, rfl, .jmp i⟩
  | jeqTaken i h => exact .inr ⟨by simp, rfl, .jeqTaken i ((htest _ rfl).mp h)⟩
  | jeqNotTaken r h => exact .inr ⟨by simp, rfl, .jeqNotTaken r (mt (htest _ rfl).mpr h)⟩

/-- Which operand is bad depends on FL only in JEQ, and there only on the test. -/
theorem badOperandWith_setFl {p q : FlagPatterns} {i : Instr} {s : State} {v : Byte} (htest : SameTest p q i s.fl v) :
    badOperandWith q i (s.setFl v) = badOperandWith p i s := by
  cases i with
  | jeq r =>
    have hiff := htest r rfl
    by_cases hfl : s.fl = p.equal
    · simp [badOperandWith, usedRegsWith, hfl, hiff.mp hfl]
    · simp [badOperandWith, usedRegsWith, hfl, mt hiff.mpr hfl]
  | _ => rfl

/-- An instruction that takes the fault of a bad operand takes it with any other FL that it tests alike. -/
theorem execWith_setFl_of_bad {p q : FlagPatterns} {i : Instr} {s : State} {v : Byte} {r : Byte} (htest : SameTest p q i s.fl v)
    (hbad : badOperandWith p i s = some r) :
    execWith q i (s.setFl v) = .next ((takeFault (.invalidRegister r) s).setFl v) :=
  execWith_of_bad ((badOperandWith_setFl htest).trans hbad)

/-! ### Only CMP writes FL, only JEQ reads it -/

/-- An instruction other than CMP leaves FL as it was, also when it faults. -/
theorem exec_fl_of_not_cmp {i : Instr} {s t : State} (h : exec i s = .next t) (hi : ∀ a b, i ≠ .cmp a b) : t.fl = s.fl := by
  obtain ht | ⟨r, -, rfl⟩ := exec_outcome h
  · obtain ⟨-, -, -, hfl | ⟨-, -, r, r', hcmp, -⟩, -⟩ := handlerWith_ok_effect ht.handlerWith_eq
    · exact hfl
    · exact absurd hcmp (hi r r')
  · rfl

/-- Running an instruction with another FL that it tests alike gives the same state but for FL, and a CMP without a bad operand the same FL. -/
theorem exec_setFl {i : Instr} {s t : State} {v : Byte} (h : exec i s = .next t)
    (htest : SameTest flagPatterns flagPatterns i s.fl v) :
    ∃ u, exec i (s.setFl v) = .next u ∧ u = t.setFl u.fl ∧
      ∀ a b, i = .cmp a b → badOperand i s = none → u.fl = t.fl := by
  obtain ht | ⟨r, hbad, rfl⟩ := exec_outcome h
  · obtain ⟨r, r', a, b, -, hfl, hu⟩ | ⟨hi, -, hu⟩ := ht.setFl flagPatterns htest
    · exact ⟨_, hu.exec_eq, rfl, fun _ _ _ _ => hfl.symm⟩
    · exact ⟨_, hu.exec_eq, rfl, fun a b hcmp => absurd hcmp (hi a b)⟩
  · rw [exec_eq_execWith, execWith_setFl_of_bad htest ((badOperandWith_flagPatterns i s).trans hbad)]
    refine ⟨_, rfl, rfl, fun _ _ _ hnone => ?_⟩
    cases hbad.symm.trans hnone

/-- Settles O41: the frame of FL (`exec_fl_of_not_cmp`), noninterference (`exec_setFl`), and the two rows of JEQ, which go to different
places. -/
theorem onlyCmpWritesAndOnlyJeqReadsFlags : Obligations.OnlyCmpWritesAndOnlyJeqReadsFlags := by
  refine ⟨fun i s t v h => ⟨exec_fl_of_not_cmp h, exec_setFl h⟩, fun s k v hv hne => ?_⟩
  have htaken : Completes flagPatterns (s.setFl flagPatterns.equal) (.jeq (regByte k)) _ := .jeqTaken k rfl
  have hnot : Completes flagPatterns (s.setFl v) (.jeq (regByte k)) _ := .jeqNotTaken _ hv
  exact ⟨_, _, htaken.exec_eq, hnot.exec_eq, hne⟩

/-! ### The flag patterns do not matter -/

/-- Two valid sets of patterns carry the result of a comparison over to each other. -/
theorem relabelFl_compareFlags {p : FlagPatterns} (q : FlagPatterns) (hp : p.Valid) (a b : Byte) :
    relabelFl p q (compareFlags p a b) = compareFlags q a b := by
  obtain ⟨hlg, hle, hge, -⟩ := hp
  unfold compareFlags
  split
  · rw [relabelFl, if_neg hlg.symm, if_pos rfl]
  · split
    · rw [relabelFl, if_pos rfl]
    · rw [relabelFl, if_neg hle.symm, if_neg hge.symm, if_pos rfl]

/-- A legal FL is FL_E exactly when the byte carried over from it is. -/
theorem relabelFl_eq_equal_iff {p q : FlagPatterns} (hp : p.Valid) (hq : q.Valid) {v : Byte} (hv : p.Legal v) :
    v = p.equal ↔ relabelFl p q v = q.equal := by
  obtain ⟨hlg, hle, hge, hl0, hg0, he0⟩ := hp
  obtain ⟨-, hle', hge', -, -, he0'⟩ := hq
  obtain rfl | rfl | rfl | rfl := hv
  · simp [relabelFl, hl0.symm, hg0.symm, he0.symm, he0'.symm]
  · simp [relabelFl, hle, hle']
  · simp [relabelFl, hlg.symm, hge, hge']
  · simp [relabelFl, hle.symm, hge.symm]

/-- The state with FL carried over from the patterns `p` to the patterns `q`. -/
def relabel (p q : FlagPatterns) (s : State) : State := s.setFl (relabelFl p q s.fl)

/-- An instruction's meaning under other patterns, from the state carried over, is the state carried over. -/
theorem execWith_relabel {p q : FlagPatterns} {i : Instr} {s t : State} (hp : p.Valid) (hq : q.Valid) (hs : p.Legal s.fl)
    (h : execWith p i s = .next t) : execWith q i (relabel p q s) = .next (relabel p q t) := by
  have htest : SameTest p q i s.fl (relabelFl p q s.fl) := fun _ _ => relabelFl_eq_equal_iff hp hq hs
  obtain ht | ⟨r, hbad, rfl⟩ := execWith_outcome h
  · obtain ⟨r, r', a, b, -, hfl, hu⟩ | ⟨-, hfl, hu⟩ := ht.setFl q htest
    · rw [relabel, relabel, hfl, relabelFl_compareFlags q hp]
      exact hu.execWith_eq
    · rw [relabel, relabel, hfl]
      exact hu.execWith_eq
  · exact execWith_setFl_of_bad htest hbad

/-- Settles O48: the fetch and the decoder see neither FL nor its patterns, and the handlers keep step (`execWith_relabel`). -/
theorem flagPatternsDoNotMatter : Obligations.FlagPatternsDoNotMatter := by
  intro opc p q s t hp hq hs hstep
  have hfetch : fetch (relabel p q s) = fetch s := rfl
  obtain ⟨hrun, ⟨c, hf, rfl⟩ | ⟨f, e, hf, hd, rfl⟩ | ⟨f, i, hf, hd, hexec⟩⟩ := stepWith_next_cases hstep
  · exact stepWith_fetch_error hrun (hfetch.trans hf)
  · exact stepWith_unknown hrun (hfetch.trans hf) hd
  · exact (stepWith_exec (s := relabel p q s) hrun (hfetch.trans hf) hd).trans (execWith_relabel hp hq hs hexec)

end Sys2Proof.Machine
end

section
/-! PROOFS about the form of memory, RESET, LOAD, the ALU and the exit status (spec/20_memory.md section 2, spec/70_reset_and_hazards.md section 1,
spec/42_alu.md section 1, spec/60_exceptions.md section 5). -/

namespace Sys2Proof.Machine

/-! ### The canonical form -/

theorem Memory.read_cons_same (k : Nat) (w : Byte) (rest : Memory) : Memory.read ((k, w) :: rest) k = w :=
  if_pos rfl

theorem Memory.read_cons_ne {k a : Nat} (h : k ≠ a) (w : Byte) (rest : Memory) :
    Memory.read ((k, w) :: rest) a = Memory.read rest a :=
  if_neg h

/-- A listed cell is listed first by every canonical memory that reads alike and lists nothing below it. -/
theorem Memory.exists_cons_of_read {k : Nat} {w : Byte} {n : Memory} (hw : w ≠ unlistedByte) (hn : Memory.wfFrom k n = true)
    (hread : n.read k = w) : ∃ rest, n = (k, w) :: rest := by
  cases n with
  | nil => exact absurd hread.symm hw
  | cons c rest =>
    obtain ⟨k', w'⟩ := c
    obtain ⟨hle, -, -, hrest⟩ := (Memory.wfFrom_cons k k' w' rest).mp hn
    obtain rfl : k' = k := by
      by_contra hne
      rw [Memory.read_cons_ne hne, Memory.read_below hrest (by omega)] at hread
      exact hw hread.symm
    rw [Memory.read_cons_same] at hread
    exact ⟨rest, by rw [hread]⟩

/-- The first address listed by a canonical memory bounds one that reads alike from below. -/
theorem Memory.wfFrom_of_read_unlisted {lo k : Nat} {n : Memory} (hn : Memory.wfFrom lo n = true)
    (hread : ∀ a < k, n.read a = unlistedByte) : Memory.wfFrom k n = true := by
  cases n with
  | nil => rfl
  | cons c rest =>
    obtain ⟨k', w'⟩ := c
    obtain ⟨-, hlt, hw', hrest⟩ := (Memory.wfFrom_cons lo k' w' rest).mp hn
    have hle : k ≤ k' := by
      by_contra hgt
      exact hw' ((Memory.read_cons_same k' w' rest).symm.trans (hread k' (by omega)))
    exact (Memory.wfFrom_cons k k' w' rest).mpr ⟨hle, hlt, hw', hrest⟩

/-- A canonical memory that reads as unlisted everywhere lists nothing. -/
theorem Memory.eq_nil_of_read_unlisted {lo : Nat} {n : Memory} (hn : Memory.wfFrom lo n = true)
    (hread : ∀ a, n.read a = unlistedByte) : n = [] := by
  cases n with
  | nil => rfl
  | cons c rest =>
    obtain ⟨k, w⟩ := c
    obtain ⟨-, -, hw, -⟩ := (Memory.wfFrom_cons lo k w rest).mp hn
    exact absurd ((Memory.read_cons_same k w rest).symm.trans (hread k)) hw

/-- The tails of two canonical memories that list the same first cell read alike when the memories do. -/
theorem Memory.read_tail_eq {k : Nat} {w : Byte} {m n : Memory} (hm : Memory.wfFrom (k + 1) m = true)
    (hn : Memory.wfFrom (k + 1) n = true)
    (hread : ∀ a, Memory.read ((k, w) :: m) a = Memory.read ((k, w) :: n) a) (a : Nat) : m.read a = n.read a := by
  by_cases ha : k = a
  · rw [Memory.read_below hm (by omega), Memory.read_below hn (by omega)]
  · rw [← Memory.read_cons_ne ha w m, hread a, Memory.read_cons_ne ha]

theorem Memory.eq_of_read_eq {lo : Nat} {m n : Memory} (hm : Memory.wfFrom lo m = true) (hn : Memory.wfFrom lo n = true)
    (hread : ∀ a, m.read a = n.read a) : m = n := by
  induction m generalizing lo n with
  | nil => exact (Memory.eq_nil_of_read_unlisted hn fun a => (hread a).symm).symm
  | cons c rest ih =>
    obtain ⟨k, w⟩ := c
    obtain ⟨-, -, hw, hrest⟩ := (Memory.wfFrom_cons lo k w rest).mp hm
    have hbelow : ∀ a < k, n.read a = unlistedByte := fun a ha => by
      rw [← hread a, Memory.read_cons_ne (by omega), Memory.read_below hrest (by omega)]
    have hnk : Memory.wfFrom k n = true := Memory.wfFrom_of_read_unlisted hn hbelow
    obtain ⟨rest', rfl⟩ := Memory.exists_cons_of_read hw hnk ((hread k).symm.trans (Memory.read_cons_same k w rest))
    obtain ⟨-, -, -, hrest'⟩ := (Memory.wfFrom_cons k k w rest').mp hnk
    rw [ih hrest hrest' (Memory.read_tail_eq hrest hrest' hread)]

/-- Settles O21, by induction on the listed cells (`Memory.eq_of_read_eq`): the first cell of one memory is the first of the other. -/
theorem canonicalMemoryIsUnique : Obligations.CanonicalMemoryIsUnique :=
  fun _ _ hm hn hread => Memory.eq_of_read_eq hm hn hread

/-! ### Loading -/

theorem loadFrom_nil (k : Nat) (s : State) : loadFrom k [] s = s := by
  rw [loadFrom]

/-- R191: a byte inside the address space is written and loading goes on. -/
theorem loadFrom_cons {k : Nat} (hk : k ≤ 255) (b : Byte) (rest : List Byte) (s : State) :
    loadFrom k (b :: rest) s = loadFrom (k + 1) rest (s.setMem (s.mem.write k b)) := by
  simp only [loadFrom, writeMem_inRange hk]

/-- R192: a byte past the address space ends loading with the fault. -/
theorem loadFrom_cons_outOfRange {k : Nat} (hk : 255 < k) (b : Byte) (rest : List Byte) (s : State) :
    loadFrom k (b :: rest) s = takeFault (.outOfRange k) s := by
  simp only [loadFrom, writeMem_outOfRange hk]

/-- Loading a program that fits writes memory only. -/
theorem loadFrom_eq_setMem {k : Nat} {p : List Byte} (hp : k + p.length ≤ 256) (s : State) :
    ∃ m, loadFrom k p s = s.setMem m := by
  induction p generalizing k s with
  | nil => exact ⟨s.mem, loadFrom_nil k s⟩
  | cons b rest ih =>
    rw [List.length_cons] at hp
    rw [loadFrom_cons (by omega)]
    obtain ⟨m, hm⟩ := ih (k := k + 1) (by omega) (s.setMem (s.mem.write k b))
    exact ⟨m, hm⟩

theorem loadFrom_wf {k : Nat} {p : List Byte} (hp : k + p.length ≤ 256) {s : State} (hs : s.mem.wf = true) :
    (loadFrom k p s).mem.wf = true := by
  induction p generalizing k s with
  | nil => rwa [loadFrom_nil]
  | cons b rest ih =>
    rw [List.length_cons] at hp
    rw [loadFrom_cons (by omega)]
    exact ih (by omega) (Memory.wf_write b hs (by omega))

/-- Loading does not touch the cells below its first address. -/
theorem loadFrom_read_below {k a : Nat} {p : List Byte} (hp : k + p.length ≤ 256) (ha : a < k) (s : State) :
    (loadFrom k p s).mem.read a = s.mem.read a := by
  induction p generalizing k s with
  | nil => rw [loadFrom_nil]
  | cons b rest ih =>
    rw [List.length_cons] at hp
    rw [loadFrom_cons (by omega), ih (by omega) (by omega), State.setMem_mem, Memory.read_write_other _ _ (by omega)]

/-- The cell `a` places after the first address holds program byte `a`, and past the program's end what it held before. -/
theorem loadFrom_read_add {k : Nat} {p : List Byte} (hp : k + p.length ≤ 256) {s : State} (hs : s.mem.wf = true) (a : Nat) :
    (loadFrom k p s).mem.read (k + a) = p.getD a (s.mem.read (k + a)) := by
  induction p generalizing k s a with
  | nil => rw [loadFrom_nil, List.getD_nil]
  | cons b rest ih =>
    rw [List.length_cons] at hp
    rw [loadFrom_cons (by omega)]
    cases a with
    | zero =>
      rw [loadFrom_read_below (by omega) (by omega), State.setMem_mem, Nat.add_zero, Memory.read_write_same b hs,
        List.getD_cons_zero]
    | succ a =>
      rw [show k + (a + 1) = k + 1 + a by omega, ih (by omega) (Memory.wf_write b hs (by omega)), State.setMem_mem,
        Memory.read_write_other _ _ (by omega), List.getD_cons_succ]

/-- R192: loading a program that does not fit ends with the fault of address 256, registers and the rest as they were. -/
theorem loadFrom_overlong {k : Nat} {p : List Byte} (hk : k ≤ 256) (hp : 256 < k + p.length) (s : State) :
    ∃ m, loadFrom k p s = takeFault (.outOfRange 256) (s.setMem m) := by
  induction p generalizing k s with
  | nil => rw [List.length_nil] at hp; omega
  | cons b rest ih =>
    rw [List.length_cons] at hp
    obtain rfl | hlt := Nat.eq_or_lt_of_le hk
    · exact ⟨s.mem, loadFrom_cons_outOfRange (by omega) b rest s⟩
    · rw [loadFrom_cons (by omega)]
      obtain ⟨m, hm⟩ := ih (k := k + 1) (by omega) (by omega) (s.setMem (s.mem.write k b))
      exact ⟨m, hm⟩

/-- Settles O24: LOAD starts at address 0 in the reset state, whose memory lists nothing and reads zero. -/
theorem loadPlacesTheProgram : Obligations.LoadPlacesTheProgram := by
  refine ⟨fun p hp => ?_, rfl⟩
  have hfit : loadBase + p.length ≤ 256 := (Nat.zero_add _).trans_le hp
  refine ⟨fun a => ?_, loadFrom_wf hfit Memory.wf_nil, ?_⟩
  · have hread := loadFrom_read_add hfit (s := State.reset) Memory.wf_nil a
    rwa [show loadBase + a = a from Nat.zero_add a] at hread
  · obtain ⟨m, hm⟩ := loadFrom_eq_setMem hfit State.reset
    rw [boot, hm, State.setMem_mem]

/-- Settles O25: the write of byte 256 raises the fault (`loadFrom_overlong`). -/
theorem overlongProgramFaults : Obligations.OverlongProgramFaults := by
  intro p hp
  obtain ⟨m, hm⟩ := loadFrom_overlong (Nat.zero_le 256) ((Nat.zero_add p.length).symm ▸ hp) State.reset
  rw [show boot p = loadFrom 0 p State.reset from rfl, hm]
  exact ⟨rfl, rfl, rfl, rfl, rfl, rfl⟩

/-! ### The reset table -/

/-- Registers 0 to 6 after reset (D4). -/
theorem reg_reset {j : Fin 8} (hj : j ≠ 7) : State.reset.reg j = 0x00#8 := by
  revert j
  decide

/-- Settles O23: each field of `State.reset` is the table's. -/
theorem resetStateIsTheTable : Obligations.ResetStateIsTheTable :=
  ⟨fun _ => rfl, rfl, rfl, fun _ => reg_reset, rfl, rfl, rfl, rfl, rfl⟩

/-! ### The ALU -/

/-- R111: a sum of bytes stored mod 256. -/
theorem toNat_byteOf_add (a b : Byte) : (byteOf ((a.toNat : Int) + b.toNat)).toNat = (a.toNat + b.toNat) % 256 := by
  rw [toNat_byteOf, ← Int.natCast_add]
  rfl

/-- R112: a product of bytes stored mod 256. -/
theorem toNat_byteOf_mul (a b : Byte) : (byteOf ((a.toNat : Int) * b.toNat)).toNat = (a.toNat * b.toNat) % 256 := by
  rw [toNat_byteOf, ← Int.natCast_mul]
  rfl

theorem compareFlags_greater (fp : FlagPatterns) {a b : Byte} (h : b.toNat < a.toNat) : compareFlags fp a b = fp.greater :=
  if_pos h

theorem compareFlags_less (fp : FlagPatterns) {a b : Byte} (h : a.toNat < b.toNat) : compareFlags fp a b = fp.less := by
  rw [compareFlags, if_neg (by omega), if_pos h]

theorem compareFlags_equal (fp : FlagPatterns) {a b : Byte} (h : a = b) : compareFlags fp a b = fp.equal := by
  rw [compareFlags, h, if_neg (Nat.lt_irrefl _), if_neg (Nat.lt_irrefl _)]

/-- Settles O22: the three operations of the ALU by their own laws. -/
theorem aluOperations : Obligations.AluOperations := by
  intro fp a b
  exact ⟨⟨_, rfl, toNat_byteOf_add a b⟩, ⟨_, rfl, toNat_byteOf_mul a b⟩,
    ⟨_, rfl, compareFlags_greater fp, compareFlags_less fp, compareFlags_equal fp⟩⟩

/-! ### The exit status -/

theorem exitStatus_running (e : ExitCodes) {s : State} (h : s.run = .running) : exitStatus e s = none := by
  simp only [exitStatus, h]

theorem exitStatus_halted (e : ExitCodes) {s : State} (h : SafeEnd s) : exitStatus e s = some 0 := by
  simp only [exitStatus, show s.run = .halted from h]

theorem exitStatus_faulted (e : ExitCodes) {s : State} {c : Cause} (h : s.run = .faulted) (hc : s.cause = some c) :
    exitStatus e s = some (causeExit e c) := by
  simp only [exitStatus, h, hc, Option.map_some]

/-- Settles O26: the codes of an unknown instruction and of a missing file are the host's two distinct non-zero parameters. -/
theorem exitStatusTellsTheEndsApart : Obligations.ExitStatusTellsTheEndsApart := by
  intro e s ir hvalid
  obtain ⟨hunknown, hnofile, hdiffer⟩ := hvalid
  exact ⟨exitStatus_running e, exitStatus_halted e, hnofile,
    fun hrun hcause => ⟨_, exitStatus_faulted e hrun hcause, hunknown, hdiffer⟩⟩

end Sys2Proof.Machine
end

section
/-! PROOFS of each instruction's result and frame (spec/40_fetch_dispatch.md to 44_control_flow.md). Each row of `Completes` gives the state, so
what is left to say of it is what it holds in the registers, in memory and in the rest. -/

namespace Sys2Proof.Machine

/-! ### Data movement, the ALU, jumps and HLT -/

/-- The register written reads as the byte written. -/
theorem reg_setRegs_set_self (s : State) (i : Fin 8) (v : Byte) : (s.setRegs (s.regs.set i.val v)).reg i = v := by
  rw [reg_setRegs_set, if_pos rfl]

/-- Settles O27: LDI is one register write and the move of PC. -/
theorem ldiLoadsTheImmediate : Obligations.LdiLoadsTheImmediate := by
  intro s i v
  exact ⟨_, (Completes.ldi i v).exec_eq, reg_setRegs_set_self s i v, rfl, sameRegsBut_setRegs_set s i v, fun _ => rfl, rfl, rfl,
    rfl, rfl⟩

/-- Settles O28: PRN is one append to OUTLOG and the move of PC. -/
theorem prnEmitsTheRegister : Obligations.PrnEmitsTheRegister := by
  intro s i
  exact ⟨_, (Completes.prn i).exec_eq, rfl, rfl, fun _ _ => rfl, fun _ => rfl, rfl, rfl, rfl⟩

/-- Settles O29: ADD writes the sum of the old values, mod 256, to regA. -/
theorem addWrapsAndKeepsFlags : Obligations.AddWrapsAndKeepsFlags := by
  intro s i j
  refine ⟨_, (Completes.add i j).exec_eq, ?_, rfl, sameRegsBut_setRegs_set s i _, fun _ => rfl, rfl, rfl, rfl, rfl⟩
  rw [State.reg_advance, reg_setRegs_set_self, toNat_byteOf_add]

/-- Settles O30: MUL writes the product mod 256 to regA. -/
theorem mulKeepsTheLowByte : Obligations.MulKeepsTheLowByte := by
  intro s i j
  refine ⟨_, (Completes.mul i j).exec_eq, ?_, rfl, sameRegsBut_setRegs_set s i _, fun _ => rfl, rfl, rfl, rfl, rfl⟩
  rw [State.reg_advance, reg_setRegs_set_self, toNat_byteOf_mul]

/-- Settles O31: CMP writes FL, with the pattern of the comparison. -/
theorem cmpSetsExactlyOneOutcome : Obligations.CmpSetsExactlyOneOutcome := by
  intro s i j
  exact ⟨_, (Completes.cmp i j).exec_eq, compareFlags_greater _, compareFlags_less _, compareFlags_equal _, rfl,
    fun _ _ => rfl, fun _ => rfl, rfl, rfl, rfl⟩

/-- Settles O36: JMP writes PC. -/
theorem jmpTakesTheRegister : Obligations.JmpTakesTheRegister := by
  intro s i
  exact ⟨_, (Completes.jmp i).exec_eq, rfl, fun _ _ => rfl, fun _ => rfl, rfl, rfl, rfl, rfl⟩

/-- Settles O37: the two rows of JEQ, each of which writes PC. -/
theorem jeqJumpsOnEqual : Obligations.JeqJumpsOnEqual := by
  intro s
  refine ⟨fun i h => ?_, fun r h => ?_⟩
  · exact ⟨_, (Completes.jeqTaken i h).exec_eq, rfl, fun _ _ => rfl, fun _ => rfl, rfl, rfl, rfl, rfl⟩
  · exact ⟨_, (Completes.jeqNotTaken r h).exec_eq, rfl, fun _ _ => rfl, fun _ => rfl, rfl, rfl, rfl, rfl⟩

/-- Settles O38: HLT writes RUN. -/
theorem hltHaltsInPlace : Obligations.HltHaltsInPlace := by
  intro s
  exact ⟨_, Completes.hlt.exec_eq, rfl, rfl, rfl, fun _ _ => rfl, fun _ => rfl, rfl, rfl⟩

/-! ### The stack -/

/-- What PUSH and CALL do before they move PC: SP decremented and a byte stored at the new SP (R131, R141). -/
def pushed (v : Byte) (s : State) : State := (decSp s).setMem (s.mem.write (stackTop (decSp s)) v)

/-- R131: PUSH stores the register, read after the decrement. -/
theorem completes_push (fp : FlagPatterns) (i : Fin 8) (s : State) :
    Completes fp s (.push (regByte i)) ((pushed ((decSp s).reg i) s).advance 2) :=
  .push i

/-- R141: CALL stores the return address and jumps to the register, read after the decrement. -/
theorem completes_call (fp : FlagPatterns) (i : Fin 8) (s : State) :
    Completes fp s (.call (regByte i)) ((pushed (byteOf ((s.pc : Int) + 2)) s).setPc ((decSp s).reg i).toNat) :=
  .call i

/-- The pushed byte stands at the new SP. -/
theorem read_pushed_stackTop {s : State} (hwf : s.mem.wf = true) (v : Byte) :
    (pushed v s).mem.read (stackTop (decSp s)) = v :=
  Memory.read_write_same v hwf

/-- A push writes no other cell. -/
theorem sameMemBut_pushed (v : Byte) (s : State) : SameMemBut (stackTop (decSp s)) s (pushed v s) :=
  fun _ ha => Memory.read_write_other s.mem v ha

/-- The operand PUSH and CALL read after the decrement: the new SP for register 7, the register as it was for the others (D9). -/
theorem reg_decSp_eq (s : State) (i : Fin 8) : (decSp s).reg i = if i = 7 then (decSp s).sp else s.reg i := by
  split
  · next h => rw [h, State.sp_eq_reg]
  · next h => exact reg_decSp h s

/-- Settles O32: PUSH is a push of the register and the move of PC. -/
theorem pushStoresBelowTheStack : Obligations.PushStoresBelowTheStack := by
  intro s i hwf
  exact ⟨_, (completes_push _ i s).exec_eq, sp_decSp s, (read_pushed_stackTop hwf _).trans (reg_decSp_eq s i), rfl,
    sameMemBut_pushed _ s, sameRegsBut_decSp s, rfl, rfl, rfl, rfl, rfl⟩

/-- The return address is a byte, since the fetch of CALL succeeded. -/
theorem toNat_returnAddress {pc : Nat} (hpc : pc ≤ 253) : (byteOf ((pc : Int) + 2)).toNat = pc + 2 := by
  rw [toNat_byteOf]
  omega

/-- Settles O34: CALL is a push of the return address and the jump. -/
theorem callSavesTheReturnAddress : Obligations.CallSavesTheReturnAddress := by
  intro s i hwf hpc
  refine ⟨_, (completes_call _ i s).exec_eq, sp_decSp s, ?_, rfl, congrArg BitVec.toNat (reg_decSp_eq s i),
    sameMemBut_pushed _ s, sameRegsBut_decSp s, rfl, rfl, rfl, rfl⟩
  rw [State.setPc_mem, read_pushed_stackTop hwf, toNat_returnAddress hpc]

/-- SP after POP's increment of a register file whose register 7 is `v`. -/
theorem sp_popped {s : State} {v : Byte} (h : s.sp = v) (n : Nat) :
    ((incSp s).advance n).sp.toNat = if v.toNat = 255 then 255 else v.toNat + 1 :=
  h ▸ sp_incSp s

/-- Settles O33: POP is a register write and the increment of SP, which sees the write when the register is SP. -/
theorem popLoadsFromTheStack : Obligations.PopLoadsFromTheStack := by
  intro s i
  refine ⟨_, (Completes.pop i).exec_eq, fun hi => ⟨?_, sp_popped ?_ 2⟩, fun hi => sp_popped ?_ 2, sameRegsBut_pop s i _,
    fun a => ?_, congrArg (· + 2) (incSp_pc _), incSp_fl _, incSp_outlog _, incSp_run _, incSp_cause _⟩
  · rw [State.reg_advance, reg_incSp hi, reg_setRegs_set_self]
  · rw [State.sp_eq_reg, reg_setRegs_set, if_neg hi, State.sp_eq_reg]
  · rw [State.sp_eq_reg, reg_setRegs_set, if_pos hi]
  · rw [State.advance_mem, incSp_mem, State.setRegs_mem]

end Sys2Proof.Machine
end

section
/-! PROOFS about two instructions in a row: the next fetch after a PUSH, PUSH then POP, CALL then RET, CMP then JEQ (spec/20_memory.md section 9,
spec/95_test_vectors.md S2 to S4). -/

namespace Sys2Proof.Machine

/-- Reading any cell after a push. -/
theorem read_pushed {s : State} (hwf : s.mem.wf = true) (v : Byte) (a : Nat) :
    (pushed v s).mem.read a = if a = stackTop (decSp s) then v else s.mem.read a := by
  split
  · next h => rw [h, read_pushed_stackTop hwf]
  · next h => exact sameMemBut_pushed v s a h

/-- Settles O44: the fetch reads the three cells after the PUSH as the push left them (`read_pushed`). -/
theorem pushedByteIsFetchedNext : Obligations.PushedByteIsFetchedNext := by
  intro s t i f hwf hexec hfetch
  cases hexec.symm.trans (completes_push _ i s).exec_eq
  obtain ⟨-, rfl⟩ := fetch_ok_inv hfetch
  exact ⟨read_pushed hwf _ _, read_pushed hwf _ _, read_pushed hwf _ _⟩

/-- Writing a register's own byte to it changes nothing. -/
theorem setRegs_set_reg_self (s : State) (i : Fin 8) : s.setRegs (s.regs.set i.val (s.reg i)) = s := by
  rw [State.reg, Fin.getElem_fin, Vector.set_getElem_self]
  rfl

/-- R132: POP of the byte a register already holds is the increment of SP. -/
theorem completes_pop_of_read {fp : FlagPatterns} {s : State} {i : Fin 8} (h : s.mem.read (stackTop s) = s.reg i) :
    Completes fp s (.pop (regByte i)) ((incSp s).advance 2) := by
  have hpop := Completes.pop (fp := fp) (s := s) i
  rwa [h, setRegs_set_reg_self] at hpop

/-- SP after a decrement and POP's increment: back to where it was, but 0x00 has wrapped to 0xFF, where POP does not increment. -/
theorem sp_incSp_of_decSp {s t : State} (ht : t.sp = (decSp s).sp) (n : Nat) :
    ((incSp t).advance n).sp = if s.sp = 0x00#8 then 0xFF#8 else s.sp := by
  have hlt := s.sp.isLt
  have hzero : s.sp = 0x00#8 ↔ s.sp.toNat = 0 := by rw [← BitVec.toNat_inj]; rfl
  apply BitVec.eq_of_toNat_eq
  rw [sp_popped ht, sp_decSp]
  split
  · next hwrap => rw [if_pos (hzero.mpr (by omega))]; rfl
  · next hwrap => rw [if_neg (mt hzero.mp (by omega))]; omega

/-- POP's increment after a change to SP alone is a change to SP alone. -/
theorem SameRegsBut.incSp {s t : State} (h : SameRegsBut [7] s t) (n : Nat) : SameRegsBut [7] s ((incSp t).advance n) :=
  fun j hj => (sameRegsBut_incSp t j hj).trans (h j hj)

/-- Settles O45: the POP reads the byte the PUSH stored, which its register still holds, so of the two instructions the decrement and the
increment of SP are left. -/
theorem pushPopRoundTrip : Obligations.PushPopRoundTrip := by
  intro s i hwf
  have hpop := completes_pop_of_read (fp := flagPatterns) (s := (pushed ((decSp s).reg i) s).advance 2) (i := i)
    (read_pushed_stackTop hwf _)
  have hsp := sp_incSp_of_decSp (s := s) (t := (pushed ((decSp s).reg i) s).advance 2) rfl 2
  have hregs : SameRegsBut [7] s ((pushed ((decSp s).reg i) s).advance 2) := sameRegsBut_decSp s
  exact ⟨_, _, (completes_push _ i s).exec_eq, hpop.exec_eq, fun hi => hregs.incSp 2 i (by simpa using hi),
    fun h => hsp.trans (if_neg h), fun h => hsp.trans (if_pos h), hregs.incSp 2, congrArg (· + 2) (incSp_pc _)⟩

/-- Settles O46: RET reads the return address CALL stored, and leaves SP where CALL put it. -/
theorem callThenRetResumesAfterTheCall : Obligations.CallThenRetResumesAfterTheCall := by
  intro s i hwf hpc
  refine ⟨_, _, (completes_call _ i s).exec_eq, exec_ret _, ?_, sp_decSp s, sameRegsBut_decSp s, sameMemBut_pushed _ s⟩
  exact (congrArg BitVec.toNat (read_pushed_stackTop hwf _)).trans (toNat_returnAddress hpc)

/-- CMP sets FL_E exactly when the bytes are equal. -/
theorem compareFlags_eq_equal_iff {fp : FlagPatterns} (hfp : fp.Valid) (a b : Byte) :
    compareFlags fp a b = fp.equal ↔ a = b := by
  obtain ⟨-, hle, hge, -⟩ := hfp
  refine ⟨fun h => ?_, compareFlags_equal fp⟩
  obtain hlt | heq | hgt := Nat.lt_trichotomy a.toNat b.toNat
  · exact absurd ((compareFlags_less fp hlt).symm.trans h) hle
  · exact BitVec.eq_of_toNat_eq heq
  · exact absurd ((compareFlags_greater fp hgt).symm.trans h) hge

/-- Settles O47: JEQ is taken exactly when the CMP before it found the bytes equal. -/
theorem cmpThenJeqJumpsWhenEqual : Obligations.CmpThenJeqJumpsWhenEqual := by
  intro s i j k
  have hiff := compareFlags_eq_equal_iff (fp := flagPatterns) (by decide) (s.reg i) (s.reg j)
  by_cases h : s.reg i = s.reg j
  · exact ⟨_, _, (Completes.cmp i j).exec_eq, (Completes.jeqTaken k (hiff.mpr h)).exec_eq, (if_pos h).symm, fun _ _ => rfl,
      fun _ => rfl⟩
  · exact ⟨_, _, (Completes.cmp i j).exec_eq, (Completes.jeqNotTaken _ (mt hiff.mp h)).exec_eq, (if_neg h).symm, fun _ _ => rfl,
      fun _ => rfl⟩

end Sys2Proof.Machine
end
